-- ==== Sys2Proof/Word.lean ====
section
/-! DEFINITION. The two value types of the core (10_state.md R38, 00_scope.md R8): bytes and words. -/

namespace Sys2Proof

/-- ByteValue: an "8-bit unsigned magnitude" (10_state.md R38). -/
abbrev Byte := BitVec 8

/-- WordValue: a "16-bit unsigned magnitude", reduced modulo 65536 (10_state.md R38). -/
abbrev Word := BitVec 16

end Sys2Proof
end

