-- ==== Sys2Proof/Machine/Bits.lean ====
section
/-! DEFINITION. Byte order, sign extension and the value-type helpers of 41_alu_primitives.md R150, R151, R156. -/

namespace Sys2Proof.Machine

/-- `hi : lo`, the word `hi * 256 + lo` (00_scope.md R8). -/
def joinBytes (hi lo : Byte) : Word := BitVec.ofNat 16 (hi.toNat * 256 + lo.toNat)

/-- `w[15:8]`. -/
def highByte (w : Word) : Byte := BitVec.ofNat 8 (w.toNat / 256)

/-- `w[7:0]`. -/
def lowByte (w : Word) : Byte := BitVec.ofNat 8 (w.toNat % 256)

/-- `sext_8(v)` reduced to a word, the form in which it is added to an address (00_scope.md R9). -/
def signExtendByte (v : Byte) : Word := v.signExtend 16

/-- Byte negation: complement plus one (41_alu_primitives.md R150). -/
def twosComplement8 (v : Byte) : Byte := ~~~v + 1#8

/-- Word negation: complement plus one (41_alu_primitives.md R150). -/
def twosComplement16 (v : Word) : Word := ~~~v + 1#16

/-- The zero predicate of a byte (41_alu_primitives.md R151). -/
def isZero8 (v : Byte) : Bool := v == 0#8

/-- The negative predicate of a byte: bit 7 (41_alu_primitives.md R151). -/
def isNegative8 (v : Byte) : Bool := v.getLsbD 7

/-- The zero predicate of a word (41_alu_primitives.md R151). -/
def isZero16 (v : Word) : Bool := v == 0#16

/-- The negative predicate of a word: bit 15 (41_alu_primitives.md R151). -/
def isNegative16 (v : Word) : Bool := v.getLsbD 15

/-- The masked-bit test of a byte (41_alu_primitives.md R151). -/
def maskedBit (v mask : Byte) : Bool := (v &&& mask) != 0#8

/-- The 'next' address (41_alu_primitives.md R156). -/
def nextWord (w : Word) : Word := w + 1#16

/-- A word moved on by a number of bytes, modulo 65536 (10_state.md R29). -/
def advanceWord (w : Word) (n : Nat) : Word := w + BitVec.ofNat 16 n

end Sys2Proof.Machine
end

