-- ==== Sys2Proof/Syntax.lean ====
section
/-! DEFINITION. The instruction set of 00_scope.md R5: one constructor per row of opcode_table.json. -/

namespace Sys2Proof

/-- The two opcode pages: without a prefix byte, and behind the one 0x10 (30_encoding.md R82). -/
inductive Page where
  | one
  | two
  deriving DecidableEq, Repr

/-- The base registers an Indexed postbyte selects (30_encoding.md R87). -/
inductive BaseReg where
  | x
  | y
  | u
  | s
  deriving DecidableEq, Repr

/-- The valid sub-modes of an Indexed postbyte with bit 7 set (30_encoding.md R88), with the offset bytes that follow
the postbyte. The four other sub-mode codes are invalid (R92) and name no operand. -/
inductive SubMode where
  | postInc1               -- 0x0  ,R+
  | postInc2               -- 0x1  ,R++
  | preDec1                -- 0x2  ,-R
  | preDec2                -- 0x3  ,--R
  | noOffset               -- 0x4  ,R
  | accB                   -- 0x5  B,R
  | accA                   -- 0x6  A,R
  | offset8 (oo : Byte)    -- 0x8  n,R
  | offset16 (off : Word)  -- 0x9  n,R
  | accD                   -- 0xB  D,R
  | pcr8 (oo : Byte)       -- 0xC  n,PCR
  | pcr16 (off : Word)     -- 0xD  n,PCR
  deriving DecidableEq, Repr

/-- An Indexed operand (30_encoding.md R87). `offset5` is the form with postbyte bit 7 clear: its offset is the
integer of "range −16..15" the manual adds to the register (WellFormed checks the range). `mode` is the form with bit 7
set: base register, indirect flag and sub-mode. The register field is kept in the PC-relative sub-modes, where it is not
used (R88), so that no bit of the encoding is dropped. -/
inductive Indexed where
  | offset5 (r : BaseReg) (off : Int)
  | mode (r : BaseReg) (indirect : Bool) (m : SubMode)
  deriving DecidableEq, Repr

/-- The 60 opcode entries of 30_encoding.md R83 and R84. `dd` is a Direct byte, `ix` an Indexed operand, `ea` an
Extended address, `imm` a 16-bit immediate and `off` the 16-bit branch offset as it stands in the instruction. -/
inductive Instr where
  | negDirect (dd : Byte)
  | negIndexed (ix : Indexed)
  | negExtended (ea : Word)
  | comDirect (dd : Byte)
  | comIndexed (ix : Indexed)
  | comExtended (ea : Word)
  | lsrDirect (dd : Byte)
  | lsrIndexed (ix : Indexed)
  | lsrExtended (ea : Word)
  | rorDirect (dd : Byte)
  | rorIndexed (ix : Indexed)
  | rorExtended (ea : Word)
  | asrDirect (dd : Byte)
  | asrIndexed (ix : Indexed)
  | asrExtended (ea : Word)
  | aslDirect (dd : Byte)
  | aslIndexed (ix : Indexed)
  | aslExtended (ea : Word)
  | rolDirect (dd : Byte)
  | rolIndexed (ix : Indexed)
  | rolExtended (ea : Word)
  | decDirect (dd : Byte)
  | decIndexed (ix : Indexed)
  | decExtended (ea : Word)
  | incDirect (dd : Byte)
  | incIndexed (ix : Indexed)
  | incExtended (ea : Word)
  | tstDirect (dd : Byte)
  | tstIndexed (ix : Indexed)
  | tstExtended (ea : Word)
  | clrDirect (dd : Byte)
  | clrIndexed (ix : Indexed)
  | clrExtended (ea : Word)
  | jmpDirect (dd : Byte)
  | jmpIndexed (ix : Indexed)
  | jmpExtended (ea : Word)
  | lbrn (off : Word)
  | lbhi (off : Word)
  | lbls (off : Word)
  | lbcc (off : Word)
  | lbcs (off : Word)
  | lbne (off : Word)
  | lbeq (off : Word)
  | lbvc (off : Word)
  | lbvs (off : Word)
  | lbpl (off : Word)
  | lbmi (off : Word)
  | lbge (off : Word)
  | lblt (off : Word)
  | lbgt (off : Word)
  | lble (off : Word)
  | swi3
  | cmpdImmediate (imm : Word)
  | cmpdDirect (dd : Byte)
  | cmpdIndexed (ix : Indexed)
  | cmpdExtended (ea : Word)
  | cmpyImmediate (imm : Word)
  | cmpyDirect (dd : Byte)
  | cmpyIndexed (ix : Indexed)
  | cmpyExtended (ea : Word)
  deriving DecidableEq, Repr

end Sys2Proof
end

