-- ==== Sys2Proof/WellFormed.lean ====
section
/-! DEFINITION. Well-formed instructions. The constructors of Syntax carry fields of the encoding's own widths, so one
check is left: the five-bit offset is an integer of the range -16 .. 15 (30_encoding.md R87). -/

namespace Sys2Proof

/-- The five-bit offset is in range (30_encoding.md R87: "range −16..15"). -/
def Indexed.wf : Indexed → Bool
  | .offset5 _ off => decide (-16 ≤ off) && decide (off ≤ 15)
  | .mode _ _ _ => true

/-- Every Indexed operand is in range; the other formats have nothing to check. -/
def Instr.wf : Instr → Bool
  | .negIndexed ix | .comIndexed ix | .lsrIndexed ix | .rorIndexed ix
  | .asrIndexed ix | .aslIndexed ix | .rolIndexed ix | .decIndexed ix
  | .incIndexed ix | .tstIndexed ix | .clrIndexed ix | .jmpIndexed ix
  | .cmpdIndexed ix | .cmpyIndexed ix => ix.wf
  | .negDirect _ | .negExtended _ | .comDirect _ | .comExtended _ | .lsrDirect _ | .lsrExtended _
  | .rorDirect _ | .rorExtended _ | .asrDirect _ | .asrExtended _ | .aslDirect _ | .aslExtended _
  | .rolDirect _ | .rolExtended _ | .decDirect _ | .decExtended _ | .incDirect _ | .incExtended _
  | .tstDirect _ | .tstExtended _ | .clrDirect _ | .clrExtended _ | .jmpDirect _ | .jmpExtended _
  | .lbrn _ | .lbhi _ | .lbls _ | .lbcc _ | .lbcs _ | .lbne _
  | .lbeq _ | .lbvc _ | .lbvs _ | .lbpl _ | .lbmi _ | .lbge _
  | .lblt _ | .lbgt _ | .lble _ | .swi3 | .cmpdImmediate _ | .cmpdDirect _
  | .cmpdExtended _ | .cmpyImmediate _ | .cmpyDirect _ | .cmpyExtended _ => true

end Sys2Proof
end

