-- ==== Sys2Proof/Decode.lean ====
section
/-! DEFINITION. The decoder and the encoder, both written from the opcode maps and the postbyte layout of 30_encoding.md.
The byte values are the defaults of OPCODE_MAP (PRESUMED: the MC6809's; assumption log entry 5). -/

namespace Sys2Proof

open Sys2Proof.Machine (joinBytes highByte lowByte)

/-- Why a byte sequence selects no instruction: no opcode-table entry (30_encoding.md R90), or an Indexed postbyte with
an invalid sub-mode (R92). -/
inductive Reject where
  | unassigned (page : Page) (op : Byte)
  | invalidPostbyte (pb : Byte)
  deriving DecidableEq, Repr

/-- What an opcode selects: an instruction that still wants the operand its format gives it (30_encoding.md R81). -/
inductive Entry where
  | direct (mk : Byte → Instr)
  | indexed (mk : Indexed → Instr)
  | extended (mk : Word → Instr)
  | immediate (mk : Word → Instr)
  | inherent (i : Instr)

/-- One row of an opcode map. -/
structure OpcodeRow where
  opcode : Byte
  entry  : Entry

/-- The Direct column of page 1 (30_encoding.md R83). -/
def pageOneDirect : List OpcodeRow :=
  [⟨0x00#8, .direct .negDirect⟩, ⟨0x03#8, .direct .comDirect⟩, ⟨0x04#8, .direct .lsrDirect⟩,
   ⟨0x06#8, .direct .rorDirect⟩, ⟨0x07#8, .direct .asrDirect⟩, ⟨0x08#8, .direct .aslDirect⟩,
   ⟨0x09#8, .direct .rolDirect⟩, ⟨0x0A#8, .direct .decDirect⟩, ⟨0x0C#8, .direct .incDirect⟩,
   ⟨0x0D#8, .direct .tstDirect⟩, ⟨0x0E#8, .direct .jmpDirect⟩, ⟨0x0F#8, .direct .clrDirect⟩]

/-- The Indexed column of page 1 (30_encoding.md R83). -/
def pageOneIndexed : List OpcodeRow :=
  [⟨0x60#8, .indexed .negIndexed⟩, ⟨0x63#8, .indexed .comIndexed⟩, ⟨0x64#8, .indexed .lsrIndexed⟩,
   ⟨0x66#8, .indexed .rorIndexed⟩, ⟨0x67#8, .indexed .asrIndexed⟩, ⟨0x68#8, .indexed .aslIndexed⟩,
   ⟨0x69#8, .indexed .rolIndexed⟩, ⟨0x6A#8, .indexed .decIndexed⟩, ⟨0x6C#8, .indexed .incIndexed⟩,
   ⟨0x6D#8, .indexed .tstIndexed⟩, ⟨0x6E#8, .indexed .jmpIndexed⟩, ⟨0x6F#8, .indexed .clrIndexed⟩]

/-- The Extended column of page 1 (30_encoding.md R83). -/
def pageOneExtended : List OpcodeRow :=
  [⟨0x70#8, .extended .negExtended⟩, ⟨0x73#8, .extended .comExtended⟩, ⟨0x74#8, .extended .lsrExtended⟩,
   ⟨0x76#8, .extended .rorExtended⟩, ⟨0x77#8, .extended .asrExtended⟩, ⟨0x78#8, .extended .aslExtended⟩,
   ⟨0x79#8, .extended .rolExtended⟩, ⟨0x7A#8, .extended .decExtended⟩, ⟨0x7C#8, .extended .incExtended⟩,
   ⟨0x7D#8, .extended .tstExtended⟩, ⟨0x7E#8, .extended .jmpExtended⟩, ⟨0x7F#8, .extended .clrExtended⟩]

/-- The long branches of page 2, whose offset the Immediate resolver reads (30_encoding.md R84). -/
def pageTwoBranches : List OpcodeRow :=
  [⟨0x21#8, .immediate .lbrn⟩, ⟨0x22#8, .immediate .lbhi⟩, ⟨0x23#8, .immediate .lbls⟩,
   ⟨0x24#8, .immediate .lbcc⟩, ⟨0x25#8, .immediate .lbcs⟩, ⟨0x26#8, .immediate .lbne⟩,
   ⟨0x27#8, .immediate .lbeq⟩, ⟨0x28#8, .immediate .lbvc⟩, ⟨0x29#8, .immediate .lbvs⟩,
   ⟨0x2A#8, .immediate .lbpl⟩, ⟨0x2B#8, .immediate .lbmi⟩, ⟨0x2C#8, .immediate .lbge⟩,
   ⟨0x2D#8, .immediate .lblt⟩, ⟨0x2E#8, .immediate .lbgt⟩, ⟨0x2F#8, .immediate .lble⟩]

/-- SWI3, CMPD and CMPY of page 2 (30_encoding.md R84). -/
def pageTwoOthers : List OpcodeRow :=
  [⟨0x3F#8, .inherent .swi3⟩, ⟨0x83#8, .immediate .cmpdImmediate⟩, ⟨0x93#8, .direct .cmpdDirect⟩,
   ⟨0xA3#8, .indexed .cmpdIndexed⟩, ⟨0xB3#8, .extended .cmpdExtended⟩, ⟨0x8C#8, .immediate .cmpyImmediate⟩,
   ⟨0x9C#8, .direct .cmpyDirect⟩, ⟨0xAC#8, .indexed .cmpyIndexed⟩, ⟨0xBC#8, .extended .cmpyExtended⟩]

/-- A value of the parameter OPCODE_MAP: the rows of each page (00_scope.md R6). -/
abbrev OpcodeMap := Page → List OpcodeRow

/-- The default of OPCODE_MAP: 36 rows on page 1, 24 on page 2 (30_encoding.md R83, R84; PRESUMED, log entry 5). -/
def opcodeMap : OpcodeMap
  | .one => pageOneDirect ++ pageOneIndexed ++ pageOneExtended
  | .two => pageTwoBranches ++ pageTwoOthers

/-- The entry of an opcode, if the map gives it one (42_engine.md R190). -/
def lookupOpcode (page : Page) (op : Byte) (map : OpcodeMap := opcodeMap) : Option Entry :=
  ((map page).find? (fun row => row.opcode == op)).map OpcodeRow.entry

/-- The byte that leads to page 2 (30_encoding.md R82). -/
def pageTwoByte : Byte := 0x10#8

/-- How many bytes the opcode of a page takes: 1, or 2 with the page byte. -/
def Page.opcodeBytes : Page → Nat
  | .one => 1
  | .two => 2

/-- One-level page dispatch (42_engine.md R182) on an instruction stream: `st k` is the byte k places after the first. -/
def opcodePage (st : Nat → Byte) : Page :=
  if st 0 = pageTwoByte then .two else .one

/-- The opcode byte that the page's map is asked for. -/
def opcodeByte (st : Nat → Byte) : Byte :=
  match opcodePage st with
  | .one => st 0
  | .two => st 1

/-- Postbyte bits 6 and 5 (30_encoding.md R87: "00=X,01=Y,10=U,11=S"). -/
def baseOfCode (c : BitVec 2) : BaseReg :=
  match c.toNat with
  | 0 => .x
  | 1 => .y
  | 2 => .u
  | _ => .s

/-- Postbyte bits 3 to 0 with bit 7 set (30_encoding.md R88), the offset bytes read after the postbyte; none for the
codes 0x7, 0xA, 0xE and 0xF of R92. -/
def subModeOfCode (c : BitVec 4) (st : Nat → Byte) : Option SubMode :=
  match c.toNat with
  | 0x0 => some .postInc1
  | 0x1 => some .postInc2
  | 0x2 => some .preDec1
  | 0x3 => some .preDec2
  | 0x4 => some .noOffset
  | 0x5 => some .accB
  | 0x6 => some .accA
  | 0x8 => some (.offset8 (st 1))
  | 0x9 => some (.offset16 (joinBytes (st 1) (st 2)))
  | 0xB => some .accD
  | 0xC => some (.pcr8 (st 1))
  | 0xD => some (.pcr16 (joinBytes (st 1) (st 2)))
  | _ => none

/-- The Indexed operand whose postbyte is `st 0` (30_encoding.md R87, R88, R92). -/
def decodeIndexed (st : Nat → Byte) : Except Reject Indexed :=
  let pb := st 0
  let r := baseOfCode (pb.extractLsb' 5 2)
  if pb.getLsbD 7 then
    match subModeOfCode (pb.extractLsb' 0 4) st with
    | some m => .ok (.mode r (pb.getLsbD 4) m)
    | none => .error (.invalidPostbyte pb)
  else
    .ok (.offset5 r (pb.extractLsb' 0 5).toInt)

/-- The operand bytes of an entry, `st 0` the first of them (30_encoding.md R81, R85, R86). -/
def decodeOperand (e : Entry) (st : Nat → Byte) : Except Reject Instr :=
  match e with
  | .direct mk => .ok (mk (st 0))
  | .indexed mk => (decodeIndexed st).map mk
  | .extended mk => .ok (mk (joinBytes (st 0) (st 1)))
  | .immediate mk => .ok (mk (joinBytes (st 0) (st 1)))
  | .inherent i => .ok i

/-- The decoder, total on every instruction stream. The opcode is looked up before any operand byte is read, so an
unassigned opcode is reported whatever follows it (60_exceptions.md R307). The map is the parameter OPCODE_MAP. -/
def decode (st : Nat → Byte) (map : OpcodeMap := opcodeMap) : Except Reject Instr :=
  match lookupOpcode (opcodePage st) (opcodeByte st) map with
  | none => .error (.unassigned (opcodePage st) (opcodeByte st))
  | some e => decodeOperand e (fun k => st ((opcodePage st).opcodeBytes + k))

/-! ## The encoder -/

/-- The two bytes of a 16-bit field, high byte first (30_encoding.md R86). -/
def wordBytes (w : Word) : List Byte := [highByte w, lowByte w]

/-- The inverse of `baseOfCode`. -/
def BaseReg.code : BaseReg → BitVec 2
  | .x => 0b00#2
  | .y => 0b01#2
  | .u => 0b10#2
  | .s => 0b11#2

/-- Postbyte bits 3 to 0 of a sub-mode (30_encoding.md R88). -/
def SubMode.code : SubMode → BitVec 4
  | .postInc1 => 0x0#4
  | .postInc2 => 0x1#4
  | .preDec1 => 0x2#4
  | .preDec2 => 0x3#4
  | .noOffset => 0x4#4
  | .accB => 0x5#4
  | .accA => 0x6#4
  | .offset8 _ => 0x8#4
  | .offset16 _ => 0x9#4
  | .accD => 0xB#4
  | .pcr8 _ => 0xC#4
  | .pcr16 _ => 0xD#4

/-- The bytes after the postbyte (30_encoding.md R88). -/
def SubMode.offsetBytes : SubMode → List Byte
  | .offset8 oo | .pcr8 oo => [oo]
  | .offset16 off | .pcr16 off => wordBytes off
  | .postInc1 | .postInc2 | .preDec1 | .preDec2 | .noOffset | .accB | .accA | .accD => []

/-- The postbyte of an Indexed operand (30_encoding.md R87). -/
def Indexed.postbyte : Indexed → Byte
  | .offset5 r off => 0#1 ++ r.code ++ BitVec.ofInt 5 off
  | .mode r indirect m => 1#1 ++ r.code ++ BitVec.ofBool indirect ++ m.code

/-- The operand bytes of an Indexed operand: the postbyte and the offset bytes. -/
def Indexed.bytes : Indexed → List Byte
  | .offset5 r off => [(Indexed.offset5 r off).postbyte]
  | .mode r indirect m => (Indexed.mode r indirect m).postbyte :: m.offsetBytes

/-- The encoder: the bytes of an instruction under the default OPCODE_MAP, in ascending address order (30_encoding.md R81,
R83, R84). -/
def encode : Instr → List Byte
  | .negDirect dd => [0x00#8, dd]
  | .negIndexed ix => 0x60#8 :: ix.bytes
  | .negExtended ea => 0x70#8 :: wordBytes ea
  | .comDirect dd => [0x03#8, dd]
  | .comIndexed ix => 0x63#8 :: ix.bytes
  | .comExtended ea => 0x73#8 :: wordBytes ea
  | .lsrDirect dd => [0x04#8, dd]
  | .lsrIndexed ix => 0x64#8 :: ix.bytes
  | .lsrExtended ea => 0x74#8 :: wordBytes ea
  | .rorDirect dd => [0x06#8, dd]
  | .rorIndexed ix => 0x66#8 :: ix.bytes
  | .rorExtended ea => 0x76#8 :: wordBytes ea
  | .asrDirect dd => [0x07#8, dd]
  | .asrIndexed ix => 0x67#8 :: ix.bytes
  | .asrExtended ea => 0x77#8 :: wordBytes ea
  | .aslDirect dd => [0x08#8, dd]
  | .aslIndexed ix => 0x68#8 :: ix.bytes
  | .aslExtended ea => 0x78#8 :: wordBytes ea
  | .rolDirect dd => [0x09#8, dd]
  | .rolIndexed ix => 0x69#8 :: ix.bytes
  | .rolExtended ea => 0x79#8 :: wordBytes ea
  | .decDirect dd => [0x0A#8, dd]
  | .decIndexed ix => 0x6A#8 :: ix.bytes
  | .decExtended ea => 0x7A#8 :: wordBytes ea
  | .incDirect dd => [0x0C#8, dd]
  | .incIndexed ix => 0x6C#8 :: ix.bytes
  | .incExtended ea => 0x7C#8 :: wordBytes ea
  | .tstDirect dd => [0x0D#8, dd]
  | .tstIndexed ix => 0x6D#8 :: ix.bytes
  | .tstExtended ea => 0x7D#8 :: wordBytes ea
  | .jmpDirect dd => [0x0E#8, dd]
  | .jmpIndexed ix => 0x6E#8 :: ix.bytes
  | .jmpExtended ea => 0x7E#8 :: wordBytes ea
  | .clrDirect dd => [0x0F#8, dd]
  | .clrIndexed ix => 0x6F#8 :: ix.bytes
  | .clrExtended ea => 0x7F#8 :: wordBytes ea
  | .lbrn off => pageTwoByte :: 0x21#8 :: wordBytes off
  | .lbhi off => pageTwoByte :: 0x22#8 :: wordBytes off
  | .lbls off => pageTwoByte :: 0x23#8 :: wordBytes off
  | .lbcc off => pageTwoByte :: 0x24#8 :: wordBytes off
  | .lbcs off => pageTwoByte :: 0x25#8 :: wordBytes off
  | .lbne off => pageTwoByte :: 0x26#8 :: wordBytes off
  | .lbeq off => pageTwoByte :: 0x27#8 :: wordBytes off
  | .lbvc off => pageTwoByte :: 0x28#8 :: wordBytes off
  | .lbvs off => pageTwoByte :: 0x29#8 :: wordBytes off
  | .lbpl off => pageTwoByte :: 0x2A#8 :: wordBytes off
  | .lbmi off => pageTwoByte :: 0x2B#8 :: wordBytes off
  | .lbge off => pageTwoByte :: 0x2C#8 :: wordBytes off
  | .lblt off => pageTwoByte :: 0x2D#8 :: wordBytes off
  | .lbgt off => pageTwoByte :: 0x2E#8 :: wordBytes off
  | .lble off => pageTwoByte :: 0x2F#8 :: wordBytes off
  | .swi3 => [pageTwoByte, 0x3F#8]
  | .cmpdImmediate imm => pageTwoByte :: 0x83#8 :: wordBytes imm
  | .cmpdDirect dd => [pageTwoByte, 0x93#8, dd]
  | .cmpdIndexed ix => pageTwoByte :: 0xA3#8 :: ix.bytes
  | .cmpdExtended ea => pageTwoByte :: 0xB3#8 :: wordBytes ea
  | .cmpyImmediate imm => pageTwoByte :: 0x8C#8 :: wordBytes imm
  | .cmpyDirect dd => [pageTwoByte, 0x9C#8, dd]
  | .cmpyIndexed ix => pageTwoByte :: 0xAC#8 :: ix.bytes
  | .cmpyExtended ea => pageTwoByte :: 0xBC#8 :: wordBytes ea

/-- An instruction stream that begins with the given bytes and goes on with zeros. -/
def streamOf (bs : List Byte) : Nat → Byte := fun k => bs.getD k 0#8

/-- The bytes of an instruction whose opcode-table number is `w`: the table reads the opcode bytes "as a big-endian
number" of `nbits` bits (30_encoding.md R96), so the first byte is the top one, and the bytes after them are zero
(assumption log entry 11). -/
def tableByte (nbits w : Nat) (k : Nat) : Byte :=
  if 8 * (k + 1) ≤ nbits then BitVec.ofNat 8 (w >>> (nbits - 8 * (k + 1))) else 0#8

/-- The instruction the decoder reads from an opcode-table number; none where it refuses. -/
def decodeTableWord (nbits w : Nat) : Option Instr :=
  (decode (tableByte nbits w)).toOption

end Sys2Proof
end

