-- ==== Sys2Proof/Machine/Flags.lean ====
section
/-! DEFINITION. The condition-code register as eight named bits (10_state.md R30, R32), N and Z from a result
(41_alu_primitives.md R152), and the flag-raising adder at both widths (R153 to R155). -/

namespace Sys2Proof.Machine

/-- The bits of CC (10_state.md R30). -/
inductive Flag where
  | C
  | V
  | Z
  | N
  | I
  | H
  | F
  | E
  deriving DecidableEq, Repr

/-- The bit number of a flag (10_state.md R30). -/
def Flag.bit : Flag → Nat
  | .C => 0
  | .V => 1
  | .Z => 2
  | .N => 3
  | .I => 4
  | .H => 5
  | .F => 6
  | .E => 7

/-- The mask of a flag (10_state.md R30). -/
def Flag.mask (f : Flag) : Byte := 1#8 <<< f.bit

/-- The predicate of a flag (10_state.md R32). -/
def getFlag (f : Flag) (cc : Byte) : Bool := cc.getLsbD f.bit

/-- The setter of a flag, which disturbs no other bit (10_state.md R32). -/
def setFlag (f : Flag) (v : Bool) (cc : Byte) : Byte :=
  if v then cc ||| f.mask else cc &&& ~~~f.mask

/-- N and Z assigned from a byte result (41_alu_primitives.md R152). -/
def setNZ8 (r cc : Byte) : Byte := setFlag .N (isNegative8 r) (setFlag .Z (isZero8 r) cc)

/-- N and Z assigned from a word result (41_alu_primitives.md R152). -/
def setNZ16 (r : Word) (cc : Byte) : Byte := setFlag .N (isNegative16 r) (setFlag .Z (isZero16 r) cc)

/-- A flag the adder raises: set when it is enabled and its condition holds, and never cleared (R155). -/
def raiseFlag (f : Flag) (enabled condition : Bool) (cc : Byte) : Byte :=
  if enabled && condition then setFlag f true cc else cc

/-- `binaryAdd_8` (41_alu_primitives.md R153): the sum and CC after. The overflow condition is the carry condition, as
the source words it (decision D34). -/
def binaryAdd8 (a b : Byte) (half carry overflow : Bool) (cc : Byte) : Byte × Byte :=
  let sum := a.toNat + b.toNat
  let cc := raiseFlag .H half (decide (a.toNat % 16 + b.toNat % 16 > 0x0F)) cc
  let cc := raiseFlag .C carry (decide (sum > 0xFF)) cc
  let cc := raiseFlag .V overflow (decide (sum > 0xFF)) cc
  (BitVec.ofNat 8 sum, cc)

/-- `binaryAdd_16` (41_alu_primitives.md R154): the sum and CC after; half-carry is out of the low byte (decision D33). -/
def binaryAdd16 (a b : Word) (half carry overflow : Bool) (cc : Byte) : Word × Byte :=
  let sum := a.toNat + b.toNat
  let cc := raiseFlag .H half (decide (a.toNat % 256 + b.toNat % 256 > 0xFF)) cc
  let cc := raiseFlag .C carry (decide (sum > 0xFFFF)) cc
  let cc := raiseFlag .V overflow (decide (sum > 0xFFFF)) cc
  (BitVec.ofNat 16 sum, cc)

end Sys2Proof.Machine
end

