-- ==== Sys2Proof/Config.lean ====
section
/-! DEFINITION. The types of the implementation parameters of 00_scope.md R6.
The structure of all of them and the values this model takes stand in Sys2Proof/Machine/Parameters.lean; the
machine is defined for every value. The spec leaves no value of a step open, so no free value stands here. -/

namespace Sys2Proof

/-- `NEG_C_MODE`: what NEG does to the carry (43_rmw.md R201, decision D8). -/
inductive NegCMode where
  | clear      -- C is cleared
  | borrow     -- C is set exactly when the operand is not zero
  | unchanged  -- C is left alone
  deriving DecidableEq, Repr

/-- `UNASSIGNED_POLICY`: the outcome of an unassigned opcode (42_engine.md R186, decision D12). -/
inductive UnassignedPolicy where
  | fault
  | nop
  deriving DecidableEq, Repr

/-- `PCR_BASE`: the base of the PC-relative sub-modes (40_addressing.md R126, decision D16). -/
inductive PcrBase where
  | entry            -- the address of the postbyte
  | afterPostbyte    -- the address after the postbyte
  | nextInstruction  -- the address of the next instruction
  deriving DecidableEq, Repr

/-- `CMP16_CYCLES`: the cycle counts of CMPD and CMPY (70_reset_and_hazards.md R349, decision D27). The Indexed
count is `indexedBase` plus the number of operand bytes, which is at least 1. No count is 0: a completed instruction
never returns 0 (60_exceptions.md R321). That CMPD and CMPY share one set of counts, and that the Indexed count is a base
plus the operand bytes, is the shape of the spec's default taken for every value: 00_scope.md R6 asks only for a count per
mode (DESIGN CHOICE, unsafe for timing; assumption log entry 30). -/
structure Cmp16Cycles where
  immediate   : Nat
  direct      : Nat
  indexedBase : Nat
  extended    : Nat
  immediate_pos : 0 < immediate
  direct_pos    : 0 < direct
  extended_pos  : 0 < extended
  deriving DecidableEq, Repr

end Sys2Proof
end

