-- ==== Sys2Proof/Machine/Parameters.lean ====
section
/-! DEFINITION. The implementation parameters of 00_scope.md R6 as one argument of the machine, and the values this model
takes where none is given: the spec's defaults. DESIGN CHOICE or PRESUMED; assumption log entries 1 to 7. -/

namespace Sys2Proof.Machine

/-- NEG clears C (decision D8; DESIGN CHOICE, unsafe; log entry 1). -/
def negCMode : NegCMode := .clear

/-- An unassigned opcode faults (decision D12; DESIGN CHOICE, safe; log entry 2). -/
def unassignedPolicy : UnassignedPolicy := .fault

/-- PC-relative offsets count from the postbyte (decision D16; DESIGN CHOICE, unsafe; log entry 3). -/
def pcrBase : PcrBase := .entry

/-- SWI3 vectors through 0xFFF2 (decision D3; PRESUMED, unsafe; log entry 4). -/
def swi3Vector : Word := 0xFFF2#16

/-- The MemoryImage has 2^19 bytes (decision D19; DESIGN CHOICE; log entry 6). -/
def memSize : Nat := 524288

/-- CMPD and CMPY take 5, 7, 6 + n and 8 cycles (decision D27; PRESUMED, unsafe for timing; log entry 7). -/
def cmp16Cycles : Cmp16Cycles := ⟨5, 7, 6, 8, by decide, by decide, by decide⟩

/-- The parameters of 00_scope.md R6. The widths, the CPU address width and the byte order are constants there, and
INIT_STATE is the state a run starts from. -/
structure Parameters where
  memSize          : Nat
  opcodeMap        : OpcodeMap
  swi3Vector       : Word
  negCMode         : NegCMode
  unassignedPolicy : UnassignedPolicy
  pcrBase          : PcrBase
  cmp16Cycles      : Cmp16Cycles

/-- The values of `step` and of everything that is not given other ones. -/
def defaultParameters : Parameters :=
  { memSize := Sys2Proof.Machine.memSize, opcodeMap := Sys2Proof.opcodeMap, swi3Vector := Sys2Proof.Machine.swi3Vector,
    negCMode := Sys2Proof.Machine.negCMode, unassignedPolicy := Sys2Proof.Machine.unassignedPolicy,
    pcrBase := Sys2Proof.Machine.pcrBase, cmp16Cycles := Sys2Proof.Machine.cmp16Cycles }

/-- The values R6 allows: at least 2^19 bytes of memory, and an opcode map that gives each instruction of a page a byte of
its own, none of page 1 the page byte (00_scope.md R6; 30_encoding.md R82). Every value of the other parameters is
allowed; the type of CMP16_CYCLES has no count of 0 (60_exceptions.md R321), and its shape is log entry 30. Which maps
are legal is DEDUCED (log entry 29). -/
structure Parameters.Legal (p : Parameters) : Prop where
  memSize  : 524288 ≤ p.memSize
  entries  : ∀ page, (p.opcodeMap page).map OpcodeRow.entry = (Sys2Proof.opcodeMap page).map OpcodeRow.entry
  distinct : ∀ page, ((p.opcodeMap page).map OpcodeRow.opcode).Nodup
  pageByte : ∀ row, row ∈ p.opcodeMap .one → row.opcode ≠ pageTwoByte

end Sys2Proof.Machine
end

