-- ==== Sys2Proof/Machine/State.lean ====
section
/-! DEFINITION. The state of the core as plain data (10_state.md R20, R37), the reasons a step can stop, and the state
after reset. -/

namespace Sys2Proof.Machine

/-- The MemoryImage (10_state.md R37): the bytes that differ from what an unlisted index reads as, by rising index.
`Memory.read`, `Memory.write` and the canonical form `Memory.wf` stand in Ops.lean. -/
abbrev Memory := List Host.Cell

/-- The RegisterFile of 10_state.md R20 and the MemoryImage of R37; there is no other state (R34 to R36). D has no field:
it is the view `State.d` of A and B (R22). -/
structure State where
  a   : Byte    -- accumulator A
  b   : Byte    -- accumulator B
  dp  : Byte    -- direct page
  cc  : Byte    -- condition codes E F H I N Z V C, bit 7 to bit 0
  pc  : Word    -- program counter
  x   : Word    -- index register X
  y   : Word    -- index register Y
  u   : Word    -- user stack pointer
  s   : Word    -- hardware stack pointer
  mem : Memory
  deriving DecidableEq, Repr

/-- The three faults of 60_exceptions.md R300 and R304, each with the information R301 and R303 attach to it. -/
inductive Fault where
  /-- An Indexed postbyte with an invalid sub-mode (R301), raised by a step; the spec's own fault, so neither safe nor
  unsafe. -/
  | invalidAddressingMode (pb : Byte)
  /-- An opcode without a table entry (R303), raised by a step under UNASSIGNED_POLICY = fault; safe: where the source's
  observed behaviour is a no-op, the model stops (assumption log entry 2). -/
  | unimplementedOpcode (page : Page) (op : Byte)
  /-- A host access outside the memory image (R302), raised by the host port only and never by a step; the spec's own
  fault, so neither safe nor unsafe. -/
  | outOfRangeAddress
  deriving DecidableEq, Repr

/-- Refusals. -/
inductive Refusal where
  /-- An instruction whose arm has no meaning yet; no arm of this model raises it. Safe. -/
  | notModelled (mnemonic : String)
  deriving DecidableEq, Repr

/-- What an instruction's meaning answers. -/
abbrev StepOutcome := Host.Outcome State Fault Refusal

/-- The state after reset. The spec gives no initial value at all (10_state.md R40, 70_reset_and_hazards.md R340: the
parameter INIT_STATE), so every value here is a DESIGN CHOICE, unsafe: assumption log entries 8 and 9. -/
def State.reset : State :=
  { a := 0#8, b := 0#8, dp := 0#8, cc := 0#8, pc := 0#16, x := 0#16, y := 0#16, u := 0#16, s := 0#16, mem := [] }

end Sys2Proof.Machine
end

