-- ==== Sys2Proof/Machine/Ops.lean ====
section
/-! DEFINITION. The named operations over memory and registers, and the one trap entry of the core. -/

namespace Sys2Proof.Machine

/-! ## The memory image -/

/-- What an unlisted index reads as. DESIGN CHOICE (assumption log entry 9): the spec gives no initial memory. -/
def Memory.fill : Byte := 0x00#8

/-- `readByte` on the store (20_memory.md R53). -/
def Memory.read : Memory → Nat → Byte
  | [], _ => Memory.fill
  | c :: m, i => if c.1 = i then c.2 else Memory.read m i

/-- The cells other than those at one index. -/
def Memory.without (m : Memory) (i : Nat) : Memory := m.filter (fun c => c.1 != i)

/-- A new cell put before the first cell of a higher index. -/
def Memory.place : Memory → Nat → Byte → Memory
  | [], i, v => [(i, v)]
  | c :: m, i, v => if i < c.1 then (i, v) :: c :: m else c :: Memory.place m i v

/-- `writeByte` on the store (20_memory.md R54); writing the fill byte removes the entry. -/
def Memory.write (m : Memory) (i : Nat) (v : Byte) : Memory :=
  if v = Memory.fill then Memory.without m i else Memory.place (Memory.without m i) i v

/-- Indexes strictly rising. -/
def Memory.rising : Memory → Bool
  | [] => true
  | [_] => true
  | c :: d :: m => decide (c.1 < d.1) && Memory.rising (d :: m)

/-- The canonical form of an image of `size` bytes: indexes strictly rising and inside the image, no listed byte equal to
the fill byte. -/
def Memory.wf (m : Memory) (size : Nat := memSize) : Bool :=
  Memory.rising m && m.all (fun c => decide (c.1 < size) && c.2 != Memory.fill)

/-! ## Memory as an instruction sees it: 16-bit addresses (20_memory.md R51) -/

/-- `MemRead(a, 1)` (20_memory.md R53). -/
def State.readByte (s : State) (a : Word) : Byte := Memory.read s.mem a.toNat

/-- `MemRead(a, 2)`: big-endian, the second address modulo 65536 (20_memory.md R55, R56). -/
def State.readWord (s : State) (a : Word) : Word := joinBytes (s.readByte a) (s.readByte (nextWord a))

/-- `MemWrite(a, 1, v)` (20_memory.md R54). -/
def State.writeByte (s : State) (a : Word) (v : Byte) : State := { s with mem := Memory.write s.mem a.toNat v }

/-! ## Registers -/

/-- D is the live concatenation of A and B (10_state.md R22). -/
def State.d (s : State) : Word := joinBytes s.a s.b

/-- `PC <- v`. -/
def State.setPc (s : State) (v : Word) : State := { s with pc := v }

/-- `CC <- v`. -/
def State.setCc (s : State) (v : Byte) : State := { s with cc := v }

/-- The predicate of one condition code (10_state.md R32). -/
def State.flag (s : State) (f : Flag) : Bool := getFlag f s.cc

/-- The base register a postbyte selects (40_addressing.md R114). -/
def State.base (s : State) : BaseReg → Word
  | .x => s.x
  | .y => s.y
  | .u => s.u
  | .s => s.s

/-- The write-back of a base register, to the real register (10_state.md R27). -/
def State.setBase (s : State) (r : BaseReg) (v : Word) : State :=
  match r with
  | .x => { s with x := v }
  | .y => { s with y := v }
  | .u => { s with u := v }
  | .s => { s with s := v }

/-- PC moved past `n` instruction-stream bytes, modulo 65536 (10_state.md R28, R29). -/
def State.advance (s : State) (n : Nat) : State := s.setPc (advanceWord s.pc n)

/-! ## The stack and the trap entry -/

/-- Memory after `push(b)` for each byte in turn: S moves down by one, then the byte is written at S (46_swi3.md R280). -/
def pushMemory (m : Memory) (sp : Word) : List Byte → Memory
  | [] => m
  | b :: bs => pushMemory (Memory.write m (sp - 1#16).toNat b) (sp - 1#16) bs

/-- S after `push(b)` for each byte in turn. -/
def pushPointer (sp : Word) : List Byte → Word
  | [] => sp
  | _ :: bs => pushPointer (sp - 1#16) bs

/-- Bytes pushed on the S stack, the first one at the highest address (46_swi3.md R280). -/
def State.pushBytes (s : State) (bs : List Byte) : State :=
  { s with s := pushPointer s.s bs, mem := pushMemory s.mem s.s bs }

/-- The register file in the order it is pushed: PC, U, Y, X, each low byte first, then DP, B, A, CC (46_swi3.md R280). -/
def frameBytes (s : State) : List Byte :=
  [lowByte s.pc, highByte s.pc, lowByte s.u, highByte s.u, lowByte s.y, highByte s.y, lowByte s.x, highByte s.x,
   s.dp, s.b, s.a, s.cc]

/-- `E <- 1` (46_swi3.md R280). -/
def setEntire (s : State) : State := s.setCc (setFlag .E true s.cc)

/-- The state with E set and the register file stacked (46_swi3.md R280, R281). -/
def stackFrame (s : State) : State := (setEntire s).pushBytes (frameBytes (setEntire s))

/-- Taking the software interrupt, the only trap entry of the core (60_exceptions.md R310; 46_swi3.md R280): E is set,
the register file is stacked, and PC is loaded from the vector AFTER the writes (20_memory.md R65, R69). The masks and the
mode do not change. The spec gives no return from it (60_exceptions.md R312). -/
def enterTrap (vector : Word) (s : State) : State := (stackFrame s).setPc ((stackFrame s).readWord vector)

end Sys2Proof.Machine
end

