-- ==== Sys2Proof/Machine/Operands.lean ====
section
/-! DEFINITION. The address calculator (40_addressing.md): the four resolvers, and the operand stage of the engine that
advances PC by the bytes a resolver consumed (42_engine.md R183). Every function here is given the state whose PC is the
address P of the first operand byte (40_addressing.md R133). -/

namespace Sys2Proof.Machine

/-- What a resolver returns: "(bytes consumed from the instruction stream beyond the opcode, resolved 16-bit address or
value)" (40_addressing.md R110). -/
structure AddressingResult where
  consumed : Nat
  value    : Word
  deriving DecidableEq, Repr

/-- Direct: `DP : dd`, one byte (40_addressing.md R111). -/
def resolveDirect (dd : Byte) (s : State) : AddressingResult := ⟨1, joinBytes s.dp dd⟩

/-- Immediate: the word in the instruction is the value, two bytes (40_addressing.md R112). -/
def resolveImmediate (imm : Word) : AddressingResult := ⟨2, imm⟩

/-- Extended: the word in the instruction is the address, two bytes (40_addressing.md R113). -/
def resolveExtended (ea : Word) : AddressingResult := ⟨2, ea⟩

/-- The bytes a sub-mode consumes: the postbyte and its offset bytes (30_encoding.md R88). -/
def subModeBytes : SubMode → Nat
  | .offset8 _ | .pcr8 _ => 2
  | .offset16 _ | .pcr16 _ => 3
  | .postInc1 | .postInc2 | .preDec1 | .preDec2 | .noOffset | .accB | .accA | .accD => 1

/-- The base of the PC-relative sub-modes, P the address of the postbyte and n the bytes consumed (40_addressing.md
R126, R135). -/
def pcRelativeBase (base : PcrBase) (p : Word) (n : Nat) : Word :=
  match base with
  | .entry => p
  | .afterPostbyte => advanceWord p 1
  | .nextInstruction => advanceWord p n

/-- The address a sub-mode computes, before any indirection (40_addressing.md R116 to R127). -/
def subModeAddress (base : PcrBase) (r : BaseReg) (m : SubMode) (s : State) : Word :=
  match m with
  | .postInc1 => s.base r
  | .postInc2 => s.base r
  | .preDec1 => s.base r - 1#16
  | .preDec2 => s.base r - 2#16
  | .noOffset => s.base r
  | .accB => s.base r + signExtendByte s.b
  | .accA => s.base r + signExtendByte s.a
  | .offset8 oo => s.base r + signExtendByte oo
  | .offset16 off => s.base r + off
  | .accD => s.base r + s.d
  | .pcr8 oo => pcRelativeBase base s.pc 2 + signExtendByte oo
  | .pcr16 off => pcRelativeBase base s.pc 3 + off

/-- The value the auto sub-modes write back to the base register whose value is `v` (40_addressing.md R116 to R119). -/
def subModeWriteBack (m : SubMode) (v : Word) : Option Word :=
  match m with
  | .postInc1 => some (v + 1#16)
  | .postInc2 => some (v + 2#16)
  | .preDec1 => some (v - 1#16)
  | .preDec2 => some (v - 2#16)
  | .noOffset | .accB | .accA | .offset8 _ | .offset16 _ | .accD | .pcr8 _ | .pcr16 _ => none

/-- The write-back of 40_addressing.md R130, made only when the indirect flag is clear (R131). -/
def writeBack (r : BaseReg) (indirect : Bool) (m : SubMode) (s : State) : State :=
  match indirect, subModeWriteBack m (s.base r) with
  | false, some v => s.setBase r v
  | _, _ => s

/-- The Indexed resolver (40_addressing.md R135): its result, and the state after the write-back. The addition of a
16-bit offset is modulo 65536, so its sign does not matter (R124). -/
def resolveIndexed (base : PcrBase) (ix : Indexed) (s : State) : AddressingResult × State :=
  match ix with
  | .offset5 r off => (⟨1, s.base r + BitVec.ofInt 16 off⟩, s)
  | .mode r indirect m =>
    let ea := subModeAddress base r m s
    (⟨subModeBytes m, if indirect then s.readWord ea else ea⟩, writeBack r indirect m s)

/-! ## The operand stage (42_engine.md R183): the resolved value, and the state whose PC is past the operand bytes -/

/-- The Direct operand stage. -/
def directStage (dd : Byte) (s : State) : Word × State :=
  ((resolveDirect dd s).value, s.advance (resolveDirect dd s).consumed)

/-- The Immediate operand stage. -/
def immediateStage (imm : Word) (s : State) : Word × State :=
  ((resolveImmediate imm).value, s.advance (resolveImmediate imm).consumed)

/-- The Extended operand stage. -/
def extendedStage (ea : Word) (s : State) : Word × State :=
  ((resolveExtended ea).value, s.advance (resolveExtended ea).consumed)

/-- The Indexed operand stage: the write-back comes before the advance of PC. -/
def indexedStage (ix : Indexed) (s : State) (base : PcrBase := pcrBase) : Word × State :=
  ((resolveIndexed base ix s).1.value, (resolveIndexed base ix s).2.advance (resolveIndexed base ix s).1.consumed)

end Sys2Proof.Machine
end

