-- ==== Sys2Proof/Machine/Branch.lean ====
section
/-! DEFINITION. Control transfer (44_jmp_lbranch.md): JMP and the fifteen long branches. -/

namespace Sys2Proof.Machine

/-! ## JMP (44_jmp_lbranch.md R240): no data access, PC takes the resolved address -/

/-- JMP, Direct (44_jmp_lbranch.md R240). -/
def execJmpDirect (dd : Byte) (s : State) : StepOutcome :=
  .next ((directStage dd s).2.setPc (directStage dd s).1)

/-- JMP, Indexed (44_jmp_lbranch.md R240). -/
def execJmpIndexed (ix : Indexed) (s : State) (p : Parameters := defaultParameters) : StepOutcome :=
  .next ((indexedStage ix s p.pcrBase).2.setPc (indexedStage ix s p.pcrBase).1)

/-- JMP, Extended (44_jmp_lbranch.md R240). -/
def execJmpExtended (ea : Word) (s : State) : StepOutcome :=
  .next ((extendedStage ea s).2.setPc (extendedStage ea s).1)

/-! ## The conditions (44_jmp_lbranch.md R242 to R256), each a test of CC -/

/-- LBRN's condition (44_jmp_lbranch.md R242). -/
def neverCondition (_ : Byte) : Bool := false

/-- LBHI's condition (44_jmp_lbranch.md R243). -/
def higherCondition (cc : Byte) : Bool := !getFlag .C cc && !getFlag .Z cc

/-- LBLS's condition (44_jmp_lbranch.md R244). -/
def lowerOrSameCondition (cc : Byte) : Bool := getFlag .C cc || getFlag .Z cc

/-- LBCC's condition (44_jmp_lbranch.md R245). -/
def carryClearCondition (cc : Byte) : Bool := !getFlag .C cc

/-- LBCS's condition (44_jmp_lbranch.md R246). -/
def carrySetCondition (cc : Byte) : Bool := getFlag .C cc

/-- LBNE's condition (44_jmp_lbranch.md R247). -/
def notEqualCondition (cc : Byte) : Bool := !getFlag .Z cc

/-- LBEQ's condition (44_jmp_lbranch.md R248). -/
def equalCondition (cc : Byte) : Bool := getFlag .Z cc

/-- LBVC's condition (44_jmp_lbranch.md R249). -/
def overflowClearCondition (cc : Byte) : Bool := !getFlag .V cc

/-- LBVS's condition (44_jmp_lbranch.md R250). -/
def overflowSetCondition (cc : Byte) : Bool := getFlag .V cc

/-- LBPL's condition (44_jmp_lbranch.md R251). -/
def plusCondition (cc : Byte) : Bool := !getFlag .N cc

/-- LBMI's condition (44_jmp_lbranch.md R252). -/
def minusCondition (cc : Byte) : Bool := getFlag .N cc

/-- LBGE's condition (44_jmp_lbranch.md R253). -/
def greaterOrEqualCondition (cc : Byte) : Bool := getFlag .N cc == getFlag .V cc

/-- LBLT's condition (44_jmp_lbranch.md R254). -/
def lessThanCondition (cc : Byte) : Bool := getFlag .N cc != getFlag .V cc

/-- LBGT's condition (44_jmp_lbranch.md R255). -/
def greaterThanCondition (cc : Byte) : Bool := !getFlag .Z cc && getFlag .N cc == getFlag .V cc

/-- LBLE's condition (44_jmp_lbranch.md R256). -/
def lessOrEqualCondition (cc : Byte) : Bool := getFlag .Z cc || getFlag .N cc != getFlag .V cc

/-! ## The long branches (44_jmp_lbranch.md R241) -/

/-- The template: the offset is added to the PC after the two offset bytes, when the condition holds. -/
def longBranch (condition : Byte → Bool) (off : Word) (s : State) : State :=
  let operand := immediateStage off s
  if condition operand.2.cc then operand.2.setPc (operand.2.pc + operand.1) else operand.2

/-- LBRN (44_jmp_lbranch.md R242). -/
def execLbrn (off : Word) (s : State) : StepOutcome := .next (longBranch neverCondition off s)

/-- LBHI (44_jmp_lbranch.md R243). -/
def execLbhi (off : Word) (s : State) : StepOutcome := .next (longBranch higherCondition off s)

/-- LBLS (44_jmp_lbranch.md R244). -/
def execLbls (off : Word) (s : State) : StepOutcome := .next (longBranch lowerOrSameCondition off s)

/-- LBCC (44_jmp_lbranch.md R245). -/
def execLbcc (off : Word) (s : State) : StepOutcome := .next (longBranch carryClearCondition off s)

/-- LBCS (44_jmp_lbranch.md R246). -/
def execLbcs (off : Word) (s : State) : StepOutcome := .next (longBranch carrySetCondition off s)

/-- LBNE (44_jmp_lbranch.md R247). -/
def execLbne (off : Word) (s : State) : StepOutcome := .next (longBranch notEqualCondition off s)

/-- LBEQ (44_jmp_lbranch.md R248). -/
def execLbeq (off : Word) (s : State) : StepOutcome := .next (longBranch equalCondition off s)

/-- LBVC (44_jmp_lbranch.md R249). -/
def execLbvc (off : Word) (s : State) : StepOutcome := .next (longBranch overflowClearCondition off s)

/-- LBVS (44_jmp_lbranch.md R250). -/
def execLbvs (off : Word) (s : State) : StepOutcome := .next (longBranch overflowSetCondition off s)

/-- LBPL (44_jmp_lbranch.md R251). -/
def execLbpl (off : Word) (s : State) : StepOutcome := .next (longBranch plusCondition off s)

/-- LBMI (44_jmp_lbranch.md R252). -/
def execLbmi (off : Word) (s : State) : StepOutcome := .next (longBranch minusCondition off s)

/-- LBGE (44_jmp_lbranch.md R253). -/
def execLbge (off : Word) (s : State) : StepOutcome := .next (longBranch greaterOrEqualCondition off s)

/-- LBLT (44_jmp_lbranch.md R254). -/
def execLblt (off : Word) (s : State) : StepOutcome := .next (longBranch lessThanCondition off s)

/-- LBGT (44_jmp_lbranch.md R255). -/
def execLbgt (off : Word) (s : State) : StepOutcome := .next (longBranch greaterThanCondition off s)

/-- LBLE (44_jmp_lbranch.md R256). -/
def execLble (off : Word) (s : State) : StepOutcome := .next (longBranch lessOrEqualCondition off s)

end Sys2Proof.Machine
end

