-- ==== Sys2Proof/Machine/Compare.lean ====
section
/-! DEFINITION. The word compares (45_cmp16.md): CMPD and CMPY. -/

namespace Sys2Proof.Machine

/-- CC after a compare (45_cmp16.md R270): C and V cleared, the adder with carry and overflow enabled on the two's
complement of the operand, then Z and N from the result. -/
def compareFlags (register operand : Word) (cc : Byte) : Byte :=
  let cleared := setFlag .V false (setFlag .C false cc)
  let sum := binaryAdd16 register (twosComplement16 operand) false true true cleared
  setNZ16 sum.1 sum.2

/-- The compare of a register with a word that the operand stage gave as a value (Immediate, 45_cmp16.md R270). The
register is read after the operand stage (40_addressing.md R134). -/
def compareValue (register : State → Word) (operand : Word × State) : State :=
  operand.2.setCc (compareFlags (register operand.2) operand.1 operand.2.cc)

/-- The compare of a register with the word at the effective address (Direct, Indexed, Extended, 45_cmp16.md R270). -/
def compareMemory (register : State → Word) (operand : Word × State) : State :=
  operand.2.setCc (compareFlags (register operand.2) (operand.2.readWord operand.1) operand.2.cc)

/-- CMPD, Immediate (45_cmp16.md R271). -/
def execCmpdImmediate (imm : Word) (s : State) : StepOutcome := .next (compareValue State.d (immediateStage imm s))

/-- CMPD, Direct (45_cmp16.md R271). -/
def execCmpdDirect (dd : Byte) (s : State) : StepOutcome := .next (compareMemory State.d (directStage dd s))

/-- CMPD, Indexed (45_cmp16.md R271). -/
def execCmpdIndexed (ix : Indexed) (s : State) (p : Parameters := defaultParameters) : StepOutcome :=
  .next (compareMemory State.d (indexedStage ix s p.pcrBase))

/-- CMPD, Extended (45_cmp16.md R271). -/
def execCmpdExtended (ea : Word) (s : State) : StepOutcome := .next (compareMemory State.d (extendedStage ea s))

/-- CMPY, Immediate (45_cmp16.md R272). -/
def execCmpyImmediate (imm : Word) (s : State) : StepOutcome := .next (compareValue State.y (immediateStage imm s))

/-- CMPY, Direct (45_cmp16.md R272). -/
def execCmpyDirect (dd : Byte) (s : State) : StepOutcome := .next (compareMemory State.y (directStage dd s))

/-- CMPY, Indexed (45_cmp16.md R272). -/
def execCmpyIndexed (ix : Indexed) (s : State) (p : Parameters := defaultParameters) : StepOutcome :=
  .next (compareMemory State.y (indexedStage ix s p.pcrBase))

/-- CMPY, Extended (45_cmp16.md R272). -/
def execCmpyExtended (ea : Word) (s : State) : StepOutcome := .next (compareMemory State.y (extendedStage ea s))

end Sys2Proof.Machine
end

