-- ==== Sys2Proof/Machine/Interrupt.lean ====
section
/-! DEFINITION. The software interrupt (46_swi3.md). -/

namespace Sys2Proof.Machine

/-- SWI3 (46_swi3.md R280): the trap entry, with PC already past both opcode bytes. -/
def execSwi3 (s : State) (p : Parameters := defaultParameters) : StepOutcome := .next (enterTrap p.swi3Vector s)

end Sys2Proof.Machine
end

