-- ==== Sys2Proof/Machine/Rmw.lean ====
section
/-! DEFINITION. The read-modify-write instructions (43_rmw.md): the eleven byte transforms, the template, and one
meaning per opcode entry. -/

namespace Sys2Proof.Machine

/-- A byte transform: from the operand and CC to the result and CC after (43_rmw.md R200). -/
abbrev ByteTransform := Byte → Byte → Byte × Byte

/-- NEG's transform for a value of NEG_C_MODE (43_rmw.md R201). -/
def negByte (mode : NegCMode) : ByteTransform := fun v cc =>
  let r := twosComplement8 v
  let cc := setNZ8 r (setFlag .V (v == 0x80#8) cc)
  match mode with
  | .clear => (r, setFlag .C false cc)
  | .borrow => (r, setFlag .C (v != 0#8) cc)
  | .unchanged => (r, cc)

/-- COM's transform (43_rmw.md R202). -/
def comByte : ByteTransform := fun v cc =>
  let r := ~~~v
  (r, setNZ8 r (setFlag .V false (setFlag .C true cc)))

/-- LSR's transform (43_rmw.md R203); V is not written. -/
def lsrByte : ByteTransform := fun v cc =>
  let r := v >>> 1
  (r, setFlag .N false (setFlag .Z (isZero8 r) (setFlag .C (v.getLsbD 0) cc)))

/-- ROR's transform (43_rmw.md R204): the old carry enters bit 7; V is not written. -/
def rorByte : ByteTransform := fun v cc =>
  let r := (if getFlag .C cc then 0x80#8 else 0x00#8) ||| (v >>> 1)
  (r, setNZ8 r (setFlag .C (v.getLsbD 0) cc))

/-- ASR's transform (43_rmw.md R205): bit 7 stays; V is not written. -/
def asrByte : ByteTransform := fun v cc =>
  let r := (v &&& 0x80#8) ||| (v >>> 1)
  (r, setNZ8 r (setFlag .C (v.getLsbD 0) cc))

/-- The C and V of a left shift: the old bit 7, and bits 7 and 6 compared (43_rmw.md R206, R207). -/
def shiftLeftFlags (v cc : Byte) : Byte :=
  setFlag .V (Bool.xor (v.getLsbD 7) (v.getLsbD 6)) (setFlag .C (v.getLsbD 7) cc)

/-- ASL's transform (43_rmw.md R206). -/
def aslByte : ByteTransform := fun v cc =>
  let r := v <<< 1
  (r, setNZ8 r (shiftLeftFlags v cc))

/-- ROL's transform (43_rmw.md R207): the old carry enters bit 0. -/
def rolByte : ByteTransform := fun v cc =>
  let r := (v <<< 1) ||| (if getFlag .C cc then 0x01#8 else 0x00#8)
  (r, setNZ8 r (shiftLeftFlags v cc))

/-- DEC's transform (43_rmw.md R208): the adder with 0xFF and no flag enabled; V for the operand 0x00. -/
def decByte : ByteTransform := fun v cc =>
  let sum := binaryAdd8 v 0xFF#8 false false false cc
  (sum.1, setNZ8 sum.1 (setFlag .V (v == 0x00#8) sum.2))

/-- INC's transform (43_rmw.md R209): the adder with 1 and no flag enabled; V when the low seven bits were all set. -/
def incByte : ByteTransform := fun v cc =>
  let sum := binaryAdd8 v 0x01#8 false false false cc
  (sum.1, setNZ8 sum.1 (setFlag .V ((v &&& 0x7F#8) == 0x7F#8) sum.2))

/-- TST's transform (43_rmw.md R210): the value passes through. -/
def tstByte : ByteTransform := fun v cc => (v, setFlag .V false (setNZ8 v cc))

/-- CLR's transform (43_rmw.md R211): the operand is ignored. -/
def clrByte : ByteTransform := fun _ cc =>
  (0x00#8, setFlag .V false (setFlag .C false (setFlag .N false (setFlag .Z true cc))))

/-! ## The template (43_rmw.md R200) -/

/-- Read the byte at `ea`, transform it, write it back. -/
def rmwAt (f : ByteTransform) (ea : Word) (s : State) : State :=
  (s.setCc (f (s.readByte ea) s.cc).2).writeByte ea (f (s.readByte ea) s.cc).1

/-- The template without its write: TST (43_rmw.md R200, R210). -/
def testAt (f : ByteTransform) (ea : Word) (s : State) : State :=
  s.setCc (f (s.readByte ea) s.cc).2

/-! ### NEG (43_rmw.md R201) -/

/-- NEG, Direct (43_rmw.md R201). -/
def execNegDirect (dd : Byte) (s : State) (p : Parameters := defaultParameters) : StepOutcome :=
  .next (rmwAt (negByte p.negCMode) (directStage dd s).1 (directStage dd s).2)

/-- NEG, Indexed (43_rmw.md R201). -/
def execNegIndexed (ix : Indexed) (s : State) (p : Parameters := defaultParameters) : StepOutcome :=
  .next (rmwAt (negByte p.negCMode) (indexedStage ix s p.pcrBase).1 (indexedStage ix s p.pcrBase).2)

/-- NEG, Extended (43_rmw.md R201). -/
def execNegExtended (ea : Word) (s : State) (p : Parameters := defaultParameters) : StepOutcome :=
  .next (rmwAt (negByte p.negCMode) (extendedStage ea s).1 (extendedStage ea s).2)

/-! ### COM (43_rmw.md R202) -/

/-- COM, Direct (43_rmw.md R202). -/
def execComDirect (dd : Byte) (s : State) : StepOutcome :=
  .next (rmwAt comByte (directStage dd s).1 (directStage dd s).2)

/-- COM, Indexed (43_rmw.md R202). -/
def execComIndexed (ix : Indexed) (s : State) (p : Parameters := defaultParameters) : StepOutcome :=
  .next (rmwAt comByte (indexedStage ix s p.pcrBase).1 (indexedStage ix s p.pcrBase).2)

/-- COM, Extended (43_rmw.md R202). -/
def execComExtended (ea : Word) (s : State) : StepOutcome :=
  .next (rmwAt comByte (extendedStage ea s).1 (extendedStage ea s).2)

/-! ### LSR (43_rmw.md R203) -/

/-- LSR, Direct (43_rmw.md R203). -/
def execLsrDirect (dd : Byte) (s : State) : StepOutcome :=
  .next (rmwAt lsrByte (directStage dd s).1 (directStage dd s).2)

/-- LSR, Indexed (43_rmw.md R203). -/
def execLsrIndexed (ix : Indexed) (s : State) (p : Parameters := defaultParameters) : StepOutcome :=
  .next (rmwAt lsrByte (indexedStage ix s p.pcrBase).1 (indexedStage ix s p.pcrBase).2)

/-- LSR, Extended (43_rmw.md R203). -/
def execLsrExtended (ea : Word) (s : State) : StepOutcome :=
  .next (rmwAt lsrByte (extendedStage ea s).1 (extendedStage ea s).2)

/-! ### ROR (43_rmw.md R204) -/

/-- ROR, Direct (43_rmw.md R204). -/
def execRorDirect (dd : Byte) (s : State) : StepOutcome :=
  .next (rmwAt rorByte (directStage dd s).1 (directStage dd s).2)

/-- ROR, Indexed (43_rmw.md R204). -/
def execRorIndexed (ix : Indexed) (s : State) (p : Parameters := defaultParameters) : StepOutcome :=
  .next (rmwAt rorByte (indexedStage ix s p.pcrBase).1 (indexedStage ix s p.pcrBase).2)

/-- ROR, Extended (43_rmw.md R204). -/
def execRorExtended (ea : Word) (s : State) : StepOutcome :=
  .next (rmwAt rorByte (extendedStage ea s).1 (extendedStage ea s).2)

/-! ### ASR (43_rmw.md R205) -/

/-- ASR, Direct (43_rmw.md R205). -/
def execAsrDirect (dd : Byte) (s : State) : StepOutcome :=
  .next (rmwAt asrByte (directStage dd s).1 (directStage dd s).2)

/-- ASR, Indexed (43_rmw.md R205). -/
def execAsrIndexed (ix : Indexed) (s : State) (p : Parameters := defaultParameters) : StepOutcome :=
  .next (rmwAt asrByte (indexedStage ix s p.pcrBase).1 (indexedStage ix s p.pcrBase).2)

/-- ASR, Extended (43_rmw.md R205). -/
def execAsrExtended (ea : Word) (s : State) : StepOutcome :=
  .next (rmwAt asrByte (extendedStage ea s).1 (extendedStage ea s).2)

/-! ### ASL (43_rmw.md R206) -/

/-- ASL, Direct (43_rmw.md R206). -/
def execAslDirect (dd : Byte) (s : State) : StepOutcome :=
  .next (rmwAt aslByte (directStage dd s).1 (directStage dd s).2)

/-- ASL, Indexed (43_rmw.md R206). -/
def execAslIndexed (ix : Indexed) (s : State) (p : Parameters := defaultParameters) : StepOutcome :=
  .next (rmwAt aslByte (indexedStage ix s p.pcrBase).1 (indexedStage ix s p.pcrBase).2)

/-- ASL, Extended (43_rmw.md R206). -/
def execAslExtended (ea : Word) (s : State) : StepOutcome :=
  .next (rmwAt aslByte (extendedStage ea s).1 (extendedStage ea s).2)

/-! ### ROL (43_rmw.md R207) -/

/-- ROL, Direct (43_rmw.md R207). -/
def execRolDirect (dd : Byte) (s : State) : StepOutcome :=
  .next (rmwAt rolByte (directStage dd s).1 (directStage dd s).2)

/-- ROL, Indexed (43_rmw.md R207). -/
def execRolIndexed (ix : Indexed) (s : State) (p : Parameters := defaultParameters) : StepOutcome :=
  .next (rmwAt rolByte (indexedStage ix s p.pcrBase).1 (indexedStage ix s p.pcrBase).2)

/-- ROL, Extended (43_rmw.md R207). -/
def execRolExtended (ea : Word) (s : State) : StepOutcome :=
  .next (rmwAt rolByte (extendedStage ea s).1 (extendedStage ea s).2)

/-! ### DEC (43_rmw.md R208) -/

/-- DEC, Direct (43_rmw.md R208). -/
def execDecDirect (dd : Byte) (s : State) : StepOutcome :=
  .next (rmwAt decByte (directStage dd s).1 (directStage dd s).2)

/-- DEC, Indexed (43_rmw.md R208). -/
def execDecIndexed (ix : Indexed) (s : State) (p : Parameters := defaultParameters) : StepOutcome :=
  .next (rmwAt decByte (indexedStage ix s p.pcrBase).1 (indexedStage ix s p.pcrBase).2)

/-- DEC, Extended (43_rmw.md R208). -/
def execDecExtended (ea : Word) (s : State) : StepOutcome :=
  .next (rmwAt decByte (extendedStage ea s).1 (extendedStage ea s).2)

/-! ### INC (43_rmw.md R209) -/

/-- INC, Direct (43_rmw.md R209). -/
def execIncDirect (dd : Byte) (s : State) : StepOutcome :=
  .next (rmwAt incByte (directStage dd s).1 (directStage dd s).2)

/-- INC, Indexed (43_rmw.md R209). -/
def execIncIndexed (ix : Indexed) (s : State) (p : Parameters := defaultParameters) : StepOutcome :=
  .next (rmwAt incByte (indexedStage ix s p.pcrBase).1 (indexedStage ix s p.pcrBase).2)

/-- INC, Extended (43_rmw.md R209). -/
def execIncExtended (ea : Word) (s : State) : StepOutcome :=
  .next (rmwAt incByte (extendedStage ea s).1 (extendedStage ea s).2)

/-! ### TST (43_rmw.md R210) -/

/-- TST, Direct (43_rmw.md R210). -/
def execTstDirect (dd : Byte) (s : State) : StepOutcome :=
  .next (testAt tstByte (directStage dd s).1 (directStage dd s).2)

/-- TST, Indexed (43_rmw.md R210). -/
def execTstIndexed (ix : Indexed) (s : State) (p : Parameters := defaultParameters) : StepOutcome :=
  .next (testAt tstByte (indexedStage ix s p.pcrBase).1 (indexedStage ix s p.pcrBase).2)

/-- TST, Extended (43_rmw.md R210). -/
def execTstExtended (ea : Word) (s : State) : StepOutcome :=
  .next (testAt tstByte (extendedStage ea s).1 (extendedStage ea s).2)

/-! ### CLR (43_rmw.md R211) -/

/-- CLR, Direct (43_rmw.md R211). -/
def execClrDirect (dd : Byte) (s : State) : StepOutcome :=
  .next (rmwAt clrByte (directStage dd s).1 (directStage dd s).2)

/-- CLR, Indexed (43_rmw.md R211). -/
def execClrIndexed (ix : Indexed) (s : State) (p : Parameters := defaultParameters) : StepOutcome :=
  .next (rmwAt clrByte (indexedStage ix s p.pcrBase).1 (indexedStage ix s p.pcrBase).2)

/-- CLR, Extended (43_rmw.md R211). -/
def execClrExtended (ea : Word) (s : State) : StepOutcome :=
  .next (rmwAt clrByte (extendedStage ea s).1 (extendedStage ea s).2)

end Sys2Proof.Machine
end

