-- ==== Sys2Proof/Machine/Dispatch.lean ====
section
/-! DEFINITION. The dispatch from an instruction to its meaning (42_engine.md R184), one arm per opcode entry. A meaning is
given the state whose PC is past the opcode byte or bytes, and advances PC past the operand bytes itself (R183). -/

namespace Sys2Proof.Machine

def exec (i : Instr) (s : State) : Host.Outcome State Fault Refusal :=
  match i with
  -- read-modify-write and JMP (page 1)
  | .negDirect dd => Sys2Proof.Machine.execNegDirect dd s
  | .negIndexed ix => Sys2Proof.Machine.execNegIndexed ix s
  | .negExtended ea => Sys2Proof.Machine.execNegExtended ea s
  | .comDirect dd => Sys2Proof.Machine.execComDirect dd s
  | .comIndexed ix => Sys2Proof.Machine.execComIndexed ix s
  | .comExtended ea => Sys2Proof.Machine.execComExtended ea s
  | .lsrDirect dd => Sys2Proof.Machine.execLsrDirect dd s
  | .lsrIndexed ix => Sys2Proof.Machine.execLsrIndexed ix s
  | .lsrExtended ea => Sys2Proof.Machine.execLsrExtended ea s
  | .rorDirect dd => Sys2Proof.Machine.execRorDirect dd s
  | .rorIndexed ix => Sys2Proof.Machine.execRorIndexed ix s
  | .rorExtended ea => Sys2Proof.Machine.execRorExtended ea s
  | .asrDirect dd => Sys2Proof.Machine.execAsrDirect dd s
  | .asrIndexed ix => Sys2Proof.Machine.execAsrIndexed ix s
  | .asrExtended ea => Sys2Proof.Machine.execAsrExtended ea s
  | .aslDirect dd => Sys2Proof.Machine.execAslDirect dd s
  | .aslIndexed ix => Sys2Proof.Machine.execAslIndexed ix s
  | .aslExtended ea => Sys2Proof.Machine.execAslExtended ea s
  | .rolDirect dd => Sys2Proof.Machine.execRolDirect dd s
  | .rolIndexed ix => Sys2Proof.Machine.execRolIndexed ix s
  | .rolExtended ea => Sys2Proof.Machine.execRolExtended ea s
  | .decDirect dd => Sys2Proof.Machine.execDecDirect dd s
  | .decIndexed ix => Sys2Proof.Machine.execDecIndexed ix s
  | .decExtended ea => Sys2Proof.Machine.execDecExtended ea s
  | .incDirect dd => Sys2Proof.Machine.execIncDirect dd s
  | .incIndexed ix => Sys2Proof.Machine.execIncIndexed ix s
  | .incExtended ea => Sys2Proof.Machine.execIncExtended ea s
  | .tstDirect dd => Sys2Proof.Machine.execTstDirect dd s
  | .tstIndexed ix => Sys2Proof.Machine.execTstIndexed ix s
  | .tstExtended ea => Sys2Proof.Machine.execTstExtended ea s
  | .clrDirect dd => Sys2Proof.Machine.execClrDirect dd s
  | .clrIndexed ix => Sys2Proof.Machine.execClrIndexed ix s
  | .clrExtended ea => Sys2Proof.Machine.execClrExtended ea s
  | .jmpDirect dd => Sys2Proof.Machine.execJmpDirect dd s
  | .jmpIndexed ix => Sys2Proof.Machine.execJmpIndexed ix s
  | .jmpExtended ea => Sys2Proof.Machine.execJmpExtended ea s
  -- long branches (page 2)
  | .lbrn off => Sys2Proof.Machine.execLbrn off s
  | .lbhi off => Sys2Proof.Machine.execLbhi off s
  | .lbls off => Sys2Proof.Machine.execLbls off s
  | .lbcc off => Sys2Proof.Machine.execLbcc off s
  | .lbcs off => Sys2Proof.Machine.execLbcs off s
  | .lbne off => Sys2Proof.Machine.execLbne off s
  | .lbeq off => Sys2Proof.Machine.execLbeq off s
  | .lbvc off => Sys2Proof.Machine.execLbvc off s
  | .lbvs off => Sys2Proof.Machine.execLbvs off s
  | .lbpl off => Sys2Proof.Machine.execLbpl off s
  | .lbmi off => Sys2Proof.Machine.execLbmi off s
  | .lbge off => Sys2Proof.Machine.execLbge off s
  | .lblt off => Sys2Proof.Machine.execLblt off s
  | .lbgt off => Sys2Proof.Machine.execLbgt off s
  | .lble off => Sys2Proof.Machine.execLble off s
  -- software interrupt and word compares (page 2)
  | .swi3 => Sys2Proof.Machine.execSwi3 s
  | .cmpdImmediate imm => Sys2Proof.Machine.execCmpdImmediate imm s
  | .cmpdDirect dd => Sys2Proof.Machine.execCmpdDirect dd s
  | .cmpdIndexed ix => Sys2Proof.Machine.execCmpdIndexed ix s
  | .cmpdExtended ea => Sys2Proof.Machine.execCmpdExtended ea s
  | .cmpyImmediate imm => Sys2Proof.Machine.execCmpyImmediate imm s
  | .cmpyDirect dd => Sys2Proof.Machine.execCmpyDirect dd s
  | .cmpyIndexed ix => Sys2Proof.Machine.execCmpyIndexed ix s
  | .cmpyExtended ea => Sys2Proof.Machine.execCmpyExtended ea s

end Sys2Proof.Machine
end

