-- ==== Sys2Proof/Machine/Configured.lean ====
section
/-! DEFINITION. The meanings under every value of the parameters of 00_scope.md R6: the same meanings as `exec` calls, each
given the parameters it depends on. -/

namespace Sys2Proof.Machine

/-- The execution of an instruction under given parameters; `exec` is the case of the default ones. -/
def execWith (p : Parameters) (i : Instr) (s : State) : StepOutcome :=
  match i with
  | .negDirect dd => execNegDirect dd s p
  | .negIndexed ix => execNegIndexed ix s p
  | .negExtended ea => execNegExtended ea s p
  | .comDirect dd => execComDirect dd s
  | .comIndexed ix => execComIndexed ix s p
  | .comExtended ea => execComExtended ea s
  | .lsrDirect dd => execLsrDirect dd s
  | .lsrIndexed ix => execLsrIndexed ix s p
  | .lsrExtended ea => execLsrExtended ea s
  | .rorDirect dd => execRorDirect dd s
  | .rorIndexed ix => execRorIndexed ix s p
  | .rorExtended ea => execRorExtended ea s
  | .asrDirect dd => execAsrDirect dd s
  | .asrIndexed ix => execAsrIndexed ix s p
  | .asrExtended ea => execAsrExtended ea s
  | .aslDirect dd => execAslDirect dd s
  | .aslIndexed ix => execAslIndexed ix s p
  | .aslExtended ea => execAslExtended ea s
  | .rolDirect dd => execRolDirect dd s
  | .rolIndexed ix => execRolIndexed ix s p
  | .rolExtended ea => execRolExtended ea s
  | .decDirect dd => execDecDirect dd s
  | .decIndexed ix => execDecIndexed ix s p
  | .decExtended ea => execDecExtended ea s
  | .incDirect dd => execIncDirect dd s
  | .incIndexed ix => execIncIndexed ix s p
  | .incExtended ea => execIncExtended ea s
  | .tstDirect dd => execTstDirect dd s
  | .tstIndexed ix => execTstIndexed ix s p
  | .tstExtended ea => execTstExtended ea s
  | .clrDirect dd => execClrDirect dd s
  | .clrIndexed ix => execClrIndexed ix s p
  | .clrExtended ea => execClrExtended ea s
  | .jmpDirect dd => execJmpDirect dd s
  | .jmpIndexed ix => execJmpIndexed ix s p
  | .jmpExtended ea => execJmpExtended ea s
  | .lbrn off => execLbrn off s
  | .lbhi off => execLbhi off s
  | .lbls off => execLbls off s
  | .lbcc off => execLbcc off s
  | .lbcs off => execLbcs off s
  | .lbne off => execLbne off s
  | .lbeq off => execLbeq off s
  | .lbvc off => execLbvc off s
  | .lbvs off => execLbvs off s
  | .lbpl off => execLbpl off s
  | .lbmi off => execLbmi off s
  | .lbge off => execLbge off s
  | .lblt off => execLblt off s
  | .lbgt off => execLbgt off s
  | .lble off => execLble off s
  | .swi3 => execSwi3 s p
  | .cmpdImmediate imm => execCmpdImmediate imm s
  | .cmpdDirect dd => execCmpdDirect dd s
  | .cmpdIndexed ix => execCmpdIndexed ix s p
  | .cmpdExtended ea => execCmpdExtended ea s
  | .cmpyImmediate imm => execCmpyImmediate imm s
  | .cmpyDirect dd => execCmpyDirect dd s
  | .cmpyIndexed ix => execCmpyIndexed ix s p
  | .cmpyExtended ea => execCmpyExtended ea s

end Sys2Proof.Machine
end

