-- ==== Sys2Proof/Machine/Timing.lean ====
section
/-! DEFINITION. The cycle count a completed step returns (70_reset_and_hazards.md R349). It is an output only: no state
holds it and no rule reads it (R350). -/

namespace Sys2Proof.Machine

/-- The operand bytes of an Indexed operand, the `n` of 70_reset_and_hazards.md R349. -/
def indexedBytes : Indexed → Nat
  | .offset5 _ _ => 1
  | .mode _ _ m => subModeBytes m

/-- A long branch: 5 cycles, and one more when it is taken (44_jmp_lbranch.md R241). -/
def branchCycles (condition : Byte → Bool) (s : State) : Nat := if condition s.cc then 6 else 5

/-- The cycle count of an instruction that starts in `s` (70_reset_and_hazards.md R349), for given counts of CMPD and
CMPY. -/
def cycleCount (cmp : Cmp16Cycles) (i : Instr) (s : State) : Nat :=
  match i with
  | .negDirect _ | .comDirect _ | .lsrDirect _ | .rorDirect _ | .asrDirect _
  | .aslDirect _ | .rolDirect _ | .decDirect _ | .incDirect _ | .tstDirect _
  | .clrDirect _ => 6
  | .negIndexed ix | .comIndexed ix | .lsrIndexed ix | .rorIndexed ix | .asrIndexed ix
  | .aslIndexed ix | .rolIndexed ix | .decIndexed ix | .incIndexed ix | .tstIndexed ix
  | .clrIndexed ix => 4 + indexedBytes ix
  | .negExtended _ | .comExtended _ | .lsrExtended _ | .rorExtended _ | .asrExtended _
  | .aslExtended _ | .rolExtended _ | .decExtended _ | .incExtended _ | .tstExtended _
  | .clrExtended _ => 7
  | .jmpDirect _ => 3
  | .jmpIndexed ix => 1 + indexedBytes ix
  | .jmpExtended _ => 4
  | .lbrn _ => branchCycles neverCondition s
  | .lbhi _ => branchCycles higherCondition s
  | .lbls _ => branchCycles lowerOrSameCondition s
  | .lbcc _ => branchCycles carryClearCondition s
  | .lbcs _ => branchCycles carrySetCondition s
  | .lbne _ => branchCycles notEqualCondition s
  | .lbeq _ => branchCycles equalCondition s
  | .lbvc _ => branchCycles overflowClearCondition s
  | .lbvs _ => branchCycles overflowSetCondition s
  | .lbpl _ => branchCycles plusCondition s
  | .lbmi _ => branchCycles minusCondition s
  | .lbge _ => branchCycles greaterOrEqualCondition s
  | .lblt _ => branchCycles lessThanCondition s
  | .lbgt _ => branchCycles greaterThanCondition s
  | .lble _ => branchCycles lessOrEqualCondition s
  | .swi3 => 19
  | .cmpdImmediate _ | .cmpyImmediate _ => cmp.immediate
  | .cmpdDirect _ | .cmpyDirect _ => cmp.direct
  | .cmpdIndexed ix | .cmpyIndexed ix => cmp.indexedBase + indexedBytes ix
  | .cmpdExtended _ | .cmpyExtended _ => cmp.extended

end Sys2Proof.Machine
end

