-- ==== Sys2Proof/Machine/Engine.lean ====
section
/-! DEFINITION. The fetch-decode-execute engine (42_engine.md): one call of executeInstruction(), with everything it
returns. Step.lean keeps of this what the host's interface carries. -/

namespace Sys2Proof.Machine

/-- What the host receives from a step, in full (60_exceptions.md R321): the next state and a cycle count, or a fault and
the state it leaves (R306). `refused` is for an instruction without a meaning; this model has none. -/
inductive StepResult where
  | completed (s : State) (cycles : Nat)
  | faulted (r : Fault) (s : State)
  | refused (r : Refusal)
  deriving DecidableEq, Repr

/-- The instruction stream at PC, addresses modulo 65536 (30_encoding.md R80). -/
def instructionStream (s : State) : Nat → Byte := fun k => s.readByte (advanceWord s.pc k)

/-- Fetch and page dispatch advance the real PC past the opcode byte or bytes (42_engine.md R181, R182). -/
def afterOpcode (s : State) : State := s.advance (opcodePage (instructionStream s)).opcodeBytes

/-- The outcome of an unassigned opcode under a policy (42_engine.md R186); `s` has PC past the opcode byte or bytes. -/
def unassignedOutcome (policy : UnassignedPolicy) (page : Page) (op : Byte) (s : State) : StepResult :=
  match policy with
  | .fault => .faulted (.unimplementedOpcode page op) s
  | .nop => .completed s 0

/-- The execute stage with its return value (42_engine.md R184, R185), `run` giving the meanings; `s` has PC past the
opcode byte or bytes. -/
def executeDecoded (p : Parameters) (run : Instr → State → StepOutcome) (i : Instr) (s : State) : StepResult :=
  match run i s with
  | .next t => .completed t (cycleCount p.cmp16Cycles i s)
  | .fault r => .faulted r s
  | .refused r => .refused r

/-- One call of executeInstruction() (42_engine.md R180), `run` giving the meanings. A fault leaves the state of
60_exceptions.md R306. -/
def executeUnder (p : Parameters) (run : Instr → State → StepOutcome) (s : State) : StepResult :=
  match decode (instructionStream s) p.opcodeMap with
  | .ok i => executeDecoded p run i (afterOpcode s)
  | .error (.unassigned page op) => unassignedOutcome p.unassignedPolicy page op (afterOpcode s)
  | .error (.invalidPostbyte pb) => .faulted (.invalidAddressingMode pb) (afterOpcode s)

/-- executeInstruction() under the default parameters. -/
def executeInstruction (s : State) : StepResult := executeUnder defaultParameters exec s

/-- executeInstruction() under given parameters (00_scope.md R6). -/
def executeInstructionWith (p : Parameters) (s : State) : StepResult := executeUnder p (execWith p) s

/-- What the host's interface keeps of a step: the cycle count and the faulted state are dropped. -/
def StepResult.outcome : StepResult → StepOutcome
  | .completed s _ => .next s
  | .faulted r _ => .fault r
  | .refused r => .refused r

/-- The step under given parameters; `step` is the case of the default ones. -/
def stepWith (p : Parameters) (s : State) : StepOutcome := (executeInstructionWith p s).outcome

/-- Bytes `0 .. n - 1` of a stream stored from an address on, modulo 65536. -/
def storeStream (s : State) (a : Word) (st : Nat → Byte) : Nat → State
  | 0 => s
  | n + 1 => (storeStream s a st n).writeByte (advanceWord a n) (st n)

/-- The length of the longest instruction (30_encoding.md R80). -/
def longestInstruction : Nat := 5

/-- An instruction stored where the next fetch reads: at PC (70_reset_and_hazards.md R341; assumption log entry 10). -/
def placeInstruction (s : State) (st : Nat → Byte) : State := storeStream s s.pc st longestInstruction

end Sys2Proof.Machine
end

