-- ==== Sys2Proof/Machine/Step.lean ====
section
/-! DEFINITION. The step of the host's interface (42_engine.md R180), and an instruction placed for it. -/

namespace Sys2Proof.Machine

/-- One step: executeInstruction, seen through the host's interface. -/
def step (s : State) : Host.Outcome State Fault Refusal := (executeInstruction s).outcome

/-- The instruction of an opcode-table number stored at PC, so that the next step fetches and runs it. -/
def State.withFetchWord (s : State) (nbits w : Nat) : State := placeInstruction s (tableByte nbits w)

end Sys2Proof.Machine
end

