-- ==== Sys2Proof/Machine/Accesses.lean ====
section
/-! DEFINITION. The memory accesses of one step, in the order of 20_memory.md R65 (decision D22) and with the widths of
R59: another output of a step, like the cycle count. No state holds them and no step reads them. -/

namespace Sys2Proof.Machine

/-- One byte access (20_memory.md R60); a word read is two of them (R59). -/
inductive Access where
  | read (a : Word)
  | write (a : Word) (v : Byte)
  deriving DecidableEq, Repr

/-- `n` byte reads at rising addresses, modulo 65536. -/
def readRun (a : Word) : Nat → List Access
  | 0 => []
  | n + 1 => readRun a n ++ [.read (advanceWord a n)]

/-- A word read: the high byte, then the low byte (20_memory.md R55). -/
def readWordAccesses (a : Word) : List Access := [.read a, .read (nextWord a)]

/-- The Indexed resolver's accesses: postbyte and offset bytes, then the pointer (20_memory.md R65 steps 3 and 4). -/
def indexedAccesses (ix : Indexed) (s : State) (base : PcrBase := pcrBase) : List Access :=
  match ix with
  | .offset5 _ _ => readRun s.pc 1
  | .mode r indirect m =>
    readRun s.pc (subModeBytes m) ++ if indirect then readWordAccesses (subModeAddress base r m s) else []

/-- The data accesses of the read-modify-write template (43_rmw.md R200). -/
def rmwAccesses (f : ByteTransform) (operand : Word × State) : List Access :=
  [.read operand.1, .write operand.1 (f (operand.2.readByte operand.1) operand.2.cc).1]

/-- A list of bytes pushed from S down (46_swi3.md R280). -/
def pushAccesses (s : Word) : List Byte → List Access
  | [] => []
  | b :: bs => .write (s - 1#16) b :: pushAccesses (s - 1#16) bs

/-- SWI3's accesses: twelve writes, then the vector word (20_memory.md R65 step 7). -/
def trapAccesses (vector : Word) (s : State) : List Access :=
  pushAccesses s.s (frameBytes (setEntire s)) ++ readWordAccesses vector

/-- The accesses of an instruction after its opcode bytes; `s` has PC at the first operand byte (20_memory.md R65). -/
def instrAccesses (i : Instr) (s : State) (p : Parameters := defaultParameters) : List Access :=
  match i with
  | .negDirect dd => readRun s.pc 1 ++ rmwAccesses (negByte p.negCMode) (directStage dd s)
  | .negIndexed ix => indexedAccesses ix s p.pcrBase ++ rmwAccesses (negByte p.negCMode) (indexedStage ix s p.pcrBase)
  | .negExtended ea => readRun s.pc 2 ++ rmwAccesses (negByte p.negCMode) (extendedStage ea s)
  | .comDirect dd => readRun s.pc 1 ++ rmwAccesses comByte (directStage dd s)
  | .comIndexed ix => indexedAccesses ix s p.pcrBase ++ rmwAccesses comByte (indexedStage ix s p.pcrBase)
  | .comExtended ea => readRun s.pc 2 ++ rmwAccesses comByte (extendedStage ea s)
  | .lsrDirect dd => readRun s.pc 1 ++ rmwAccesses lsrByte (directStage dd s)
  | .lsrIndexed ix => indexedAccesses ix s p.pcrBase ++ rmwAccesses lsrByte (indexedStage ix s p.pcrBase)
  | .lsrExtended ea => readRun s.pc 2 ++ rmwAccesses lsrByte (extendedStage ea s)
  | .rorDirect dd => readRun s.pc 1 ++ rmwAccesses rorByte (directStage dd s)
  | .rorIndexed ix => indexedAccesses ix s p.pcrBase ++ rmwAccesses rorByte (indexedStage ix s p.pcrBase)
  | .rorExtended ea => readRun s.pc 2 ++ rmwAccesses rorByte (extendedStage ea s)
  | .asrDirect dd => readRun s.pc 1 ++ rmwAccesses asrByte (directStage dd s)
  | .asrIndexed ix => indexedAccesses ix s p.pcrBase ++ rmwAccesses asrByte (indexedStage ix s p.pcrBase)
  | .asrExtended ea => readRun s.pc 2 ++ rmwAccesses asrByte (extendedStage ea s)
  | .aslDirect dd => readRun s.pc 1 ++ rmwAccesses aslByte (directStage dd s)
  | .aslIndexed ix => indexedAccesses ix s p.pcrBase ++ rmwAccesses aslByte (indexedStage ix s p.pcrBase)
  | .aslExtended ea => readRun s.pc 2 ++ rmwAccesses aslByte (extendedStage ea s)
  | .rolDirect dd => readRun s.pc 1 ++ rmwAccesses rolByte (directStage dd s)
  | .rolIndexed ix => indexedAccesses ix s p.pcrBase ++ rmwAccesses rolByte (indexedStage ix s p.pcrBase)
  | .rolExtended ea => readRun s.pc 2 ++ rmwAccesses rolByte (extendedStage ea s)
  | .decDirect dd => readRun s.pc 1 ++ rmwAccesses decByte (directStage dd s)
  | .decIndexed ix => indexedAccesses ix s p.pcrBase ++ rmwAccesses decByte (indexedStage ix s p.pcrBase)
  | .decExtended ea => readRun s.pc 2 ++ rmwAccesses decByte (extendedStage ea s)
  | .incDirect dd => readRun s.pc 1 ++ rmwAccesses incByte (directStage dd s)
  | .incIndexed ix => indexedAccesses ix s p.pcrBase ++ rmwAccesses incByte (indexedStage ix s p.pcrBase)
  | .incExtended ea => readRun s.pc 2 ++ rmwAccesses incByte (extendedStage ea s)
  | .clrDirect dd => readRun s.pc 1 ++ rmwAccesses clrByte (directStage dd s)
  | .clrIndexed ix => indexedAccesses ix s p.pcrBase ++ rmwAccesses clrByte (indexedStage ix s p.pcrBase)
  | .clrExtended ea => readRun s.pc 2 ++ rmwAccesses clrByte (extendedStage ea s)
  | .tstDirect dd => readRun s.pc 1 ++ [.read (directStage dd s).1]
  | .tstIndexed ix => indexedAccesses ix s p.pcrBase ++ [.read (indexedStage ix s p.pcrBase).1]
  | .tstExtended ea => readRun s.pc 2 ++ [.read (extendedStage ea s).1]
  | .jmpDirect _ => readRun s.pc 1
  | .jmpIndexed ix => indexedAccesses ix s p.pcrBase
  | .jmpExtended _ => readRun s.pc 2
  | .lbrn _ | .lbhi _ | .lbls _ | .lbcc _ | .lbcs _ | .lbne _ | .lbeq _ | .lbvc _
  | .lbvs _ | .lbpl _ | .lbmi _ | .lbge _ | .lblt _ | .lbgt _ | .lble _ => readRun s.pc 2
  | .swi3 => trapAccesses p.swi3Vector s
  | .cmpdImmediate _ | .cmpyImmediate _ => readRun s.pc 2
  | .cmpdDirect dd | .cmpyDirect dd => readRun s.pc 1 ++ readWordAccesses (directStage dd s).1
  | .cmpdIndexed ix | .cmpyIndexed ix => indexedAccesses ix s p.pcrBase ++ readWordAccesses (indexedStage ix s p.pcrBase).1
  | .cmpdExtended ea | .cmpyExtended ea => readRun s.pc 2 ++ readWordAccesses (extendedStage ea s).1

/-- The accesses of a step. A step that faults makes those up to the point of the fault: the opcode byte or bytes, and
the postbyte where that is the offender (20_memory.md R65). -/
def stepAccesses (s : State) (p : Parameters := defaultParameters) : List Access :=
  readRun s.pc (opcodePage (instructionStream s)).opcodeBytes ++
    match decode (instructionStream s) p.opcodeMap with
    | .ok i => instrAccesses i (afterOpcode s) p
    | .error (.unassigned _ _) => []
    | .error (.invalidPostbyte _) => readRun (afterOpcode s).pc 1

/-- The effect of an access on memory (20_memory.md R53, R54). -/
def applyAccess (m : Memory) : Access → Memory
  | .read _ => m
  | .write a v => Memory.write m a.toNat v

end Sys2Proof.Machine
end

