-- ==== Sys2Proof/Machine/HostPort.lean ====
section
/-! DEFINITION. What the surrounding system may do between two steps (10_state.md R32, R39; 20_memory.md R66): direct
memory access by an index into the whole image, the register accessors and mutators, and a run in which such moves and
steps alternate. No step uses this file. -/

namespace Sys2Proof.Machine

/-- The host's `readByte` (20_memory.md R66, R71). -/
def hostReadByte (s : State) (i : Nat) (size : Nat := memSize) : Except Fault Byte :=
  if i < size then .ok (Memory.read s.mem i) else .error .outOfRangeAddress

/-- The host's `readWord`: no wrap at 65536 (20_memory.md R66; decision D20). -/
def hostReadWord (s : State) (i : Nat) (size : Nat := memSize) : Except Fault Word :=
  if i + 1 < size then .ok (joinBytes (Memory.read s.mem i) (Memory.read s.mem (i + 1))) else .error .outOfRangeAddress

/-- The host's `writeByte` (20_memory.md R66, R71). -/
def hostWriteByte (s : State) (i : Nat) (v : Byte) (size : Nat := memSize) : Except Fault State :=
  if i < size then .ok { s with mem := Memory.write s.mem i v } else .error .outOfRangeAddress

/-- The flag predicates of 10_state.md R32, by the source's names. -/
def carrySet (s : State) : Bool := s.flag .C
def overflowSet (s : State) : Bool := s.flag .V
def zeroSet (s : State) : Bool := s.flag .Z
def negativeSet (s : State) : Bool := s.flag .N
def halfCarrySet (s : State) : Bool := s.flag .H
def irqMaskSet (s : State) : Bool := s.flag .I
def firqMaskSet (s : State) : Bool := s.flag .F

/-- `D <- v`: A and B (10_state.md R22). -/
def State.setD (s : State) (v : Word) : State := { s with a := highByte v, b := lowByte v }

/-- One mutation by the host (10_state.md R39; 20_memory.md R66). -/
inductive HostMove where
  | setA (v : Byte)
  | setB (v : Byte)
  | setD (v : Word)
  | setDp (v : Byte)
  | setCc (v : Byte)
  | setPc (v : Word)
  | setX (v : Word)
  | setY (v : Word)
  | setU (v : Word)
  | setS (v : Word)
  | setFlag (f : Flag) (v : Bool)
  | writeByte (i : Nat) (v : Byte)
  deriving DecidableEq, Repr

/-- The state after a host move, or the fault of a memory index outside the image. -/
def hostMove (m : HostMove) (s : State) (size : Nat := memSize) : Except Fault State :=
  match m with
  | .setA v => .ok { s with a := v }
  | .setB v => .ok { s with b := v }
  | .setD v => .ok (s.setD v)
  | .setDp v => .ok { s with dp := v }
  | .setCc v => .ok (s.setCc v)
  | .setPc v => .ok (s.setPc v)
  | .setX v => .ok (s.setBase .x v)
  | .setY v => .ok (s.setBase .y v)
  | .setU v => .ok (s.setBase .u v)
  | .setS v => .ok (s.setBase .s v)
  | .setFlag f v => .ok (s.setCc (Sys2Proof.Machine.setFlag f v s.cc))
  | .writeByte i v => hostWriteByte s i v size

/-- What happens to a machine in its platform: a step, or a host move between steps (60_exceptions.md R309). -/
inductive PlatformEvent where
  | step
  | host (m : HostMove)
  deriving DecidableEq, Repr

/-- One event, `machine` making the steps of an image of `size` bytes: `step`, or `stepWith` of some parameters. -/
def platformEvent (e : PlatformEvent) (s : State) (machine : State → StepOutcome := Sys2Proof.Machine.step)
    (size : Nat := memSize) : StepOutcome :=
  match e with
  | .step => machine s
  | .host m =>
    match hostMove m s size with
    | .ok t => .next t
    | .error r => .fault r

/-- A run of events. When a run ends is left to the model (42_engine.md R189, decision D31): here with the last event of the
list or at the first fault (60_exceptions.md R305). DESIGN CHOICE, log entry 28. -/
def platformRun (es : List PlatformEvent) (s : State) (machine : State → StepOutcome := Sys2Proof.Machine.step)
    (size : Nat := memSize) : StepOutcome :=
  match es with
  | [] => .next s
  | e :: es =>
    match platformEvent e s machine size with
    | .next t => platformRun es t machine size
    | .fault r => .fault r
    | .refused r => .refused r

end Sys2Proof.Machine
end

