-- ==== Sys2Proof/Safety.lean ====
section
/-! DEFINITION. What counts as a safe run, the invariant of the machine, and the terms the statements are made in: what
two states have in common, and which encodings the spec assigns. -/

namespace Sys2Proof.Machine

/-! ## Runs -/

/-- `k` steps from `s` end in `t`: no step faults and none is refused (60_exceptions.md R305). When a run ends is left to
the model (42_engine.md R189, decision D31): here after the number of steps its user gives, or at the first fault. DESIGN
CHOICE, log entry 28. -/
def RunsTo (k : Nat) (s t : State) : Prop := Sys2Proof.core.run k s = .next t

/-- A run of `k` steps without a fault; the step bound is the model's end of a run (R189; DESIGN CHOICE, log entry
28). -/
def SafeRun (k : Nat) (s : State) : Prop := ∃ t, RunsTo k s t

/-- The invariant: the memory image is in canonical form. Every other field may hold any value of its width
(10_state.md R34, R41). -/
abbrev State.Inv (s : State) : Prop := Memory.wf s.mem = true

/-! ## What two states have in common -/

/-- Every register other than PC and CC is the same in both states. -/
def SameRegisters (s t : State) : Prop :=
  t.a = s.a ∧ t.b = s.b ∧ t.dp = s.dp ∧ t.x = s.x ∧ t.y = s.y ∧ t.u = s.u ∧ t.s = s.s

/-- Every flag outside the list is the same in both states. -/
def SameFlagsExcept (written : List Flag) (s t : State) : Prop := ∀ f, f ∉ written → t.flag f = s.flag f

/-- Every byte of the image outside the given indexes reads the same in both states. -/
def SameBytesExcept (stored : Nat → Prop) (s t : State) : Prop :=
  ∀ i, ¬ stored i → Memory.read t.mem i = Memory.read s.mem i

/-- Every byte of the image reads the same in both states. -/
def SameBytes (s t : State) : Prop := ∀ i, Memory.read t.mem i = Memory.read s.mem i

/-! ## Instructions by form -/

/-- A property of the three forms of a page-1 instruction: `P s ea o` is about the address `ea` and the state `s` that
the form's operand stage gives, and the outcome `o` of the instruction. -/
def InThreeForms (direct : Byte → Instr) (indexed : Indexed → Instr) (extended : Word → Instr)
    (P : State → Word → StepOutcome → Prop) : Prop :=
  ∀ s : State,
    (∀ dd, P (directStage dd s).2 (directStage dd s).1 (exec (direct dd) s)) ∧
    (∀ ix, P (indexedStage ix s).2 (indexedStage ix s).1 (exec (indexed ix) s)) ∧
    (∀ ea, P (extendedStage ea s).2 (extendedStage ea s).1 (exec (extended ea) s))

/-- The instruction completes with the byte `r` stored at `ea` and the flags in `written` as `flags` says; PC, every
other register, every other flag and every other byte are those of `s`. -/
def CompletesStoring (s : State) (ea : Word) (o : StepOutcome) (r : Byte) (written : List Flag)
    (flags : State → Prop) : Prop :=
  ∃ t, o = .next t ∧ t.readByte ea = r ∧ flags t ∧ SameFlagsExcept written s t ∧ t.pc = s.pc ∧ SameRegisters s t ∧
    SameBytesExcept (fun i => i = ea.toNat) s t

/-- The instruction completes with the flags in `written` as `flags` says and nothing else changed from `s`. -/
def CompletesWithFlags (s : State) (o : StepOutcome) (written : List Flag) (flags : State → Prop) : Prop :=
  ∃ t, o = .next t ∧ flags t ∧ SameFlagsExcept written s t ∧ t.pc = s.pc ∧ SameRegisters s t ∧ SameBytes s t

/-- The Indexed operand of an instruction, if it has one. -/
def indexedOperand : Instr → Option Indexed
  | .negIndexed ix | .comIndexed ix | .lsrIndexed ix | .rorIndexed ix | .asrIndexed ix | .aslIndexed ix
  | .rolIndexed ix | .decIndexed ix | .incIndexed ix | .tstIndexed ix | .clrIndexed ix | .jmpIndexed ix
  | .cmpdIndexed ix | .cmpyIndexed ix => some ix
  | _ => none

/-- The instruction's operand is an auto-increment or auto-decrement of `r` with the indirect flag clear
(10_state.md R24, R25). -/
def AutoModifies (i : Instr) (r : BaseReg) : Prop :=
  ∃ m, indexedOperand i = some (.mode r false m) ∧ m ∈ [SubMode.postInc1, .postInc2, .preDec1, .preDec2]

/-- The operand is PC-relative, with the indirect flag or without (40_addressing.md R126, R127). -/
def PcRelative (i : Instr) : Prop :=
  ∃ r indirect m, indexedOperand i = some (.mode r indirect m) ∧
    ((∃ oo, m = SubMode.pcr8 oo) ∨ ∃ off, m = SubMode.pcr16 off)

/-- NEG in one of its three forms. -/
def IsNeg (i : Instr) : Prop :=
  (∃ dd, i = .negDirect dd) ∨ (∃ ix, i = .negIndexed ix) ∨ ∃ ea, i = .negExtended ea

/-- JMP, the long branches and SWI3: the instructions that replace PC (10_state.md R28). -/
def replacesPc : Instr → Bool
  | .jmpDirect _ | .jmpIndexed _ | .jmpExtended _ | .lbrn _ | .lbhi _ | .lbls _ | .lbcc _ | .lbcs _ | .lbne _
  | .lbeq _ | .lbvc _ | .lbvs _ | .lbpl _ | .lbmi _ | .lbge _ | .lblt _ | .lbgt _ | .lble _ | .swi3 => true
  | _ => false

/-- Each long branch with its condition on CC, written in the source's operators (44_jmp_lbranch.md R242 to R256). -/
def branchConditions (s : State) (off : Word) : List (Instr × Bool) :=
  let c := s.cc.getLsbD 0
  let v := s.cc.getLsbD 1
  let z := s.cc.getLsbD 2
  let n := s.cc.getLsbD 3
  [(.lbrn off, false), (.lbhi off, !c && !z), (.lbls off, c || z), (.lbcc off, !c), (.lbcs off, c), (.lbne off, !z),
   (.lbeq off, z), (.lbvc off, !v), (.lbvs off, v), (.lbpl off, !n), (.lbmi off, n), (.lbge off, n == v),
   (.lblt off, n != v), (.lbgt off, !z && n == v), (.lble off, z || n != v)]

/-- What a compare of `register` with `operand` leaves (45_cmp16.md R270): Z, N from the 16-bit difference, C and V both
the carry of the addition of the two's complement, and nothing else changed from `s`. -/
def ComparesTo (s : State) (o : StepOutcome) (register operand : Nat) : Prop :=
  CompletesWithFlags s o [.C, .V, .Z, .N] fun t =>
    t.flag .Z = decide (register = operand) ∧
    t.flag .N = decide (32768 ≤ (register + (65536 - operand)) % 65536) ∧
    t.flag .C = decide (operand ≠ 0 ∧ operand ≤ register) ∧ t.flag .V = decide (operand ≠ 0 ∧ operand ≤ register)

/-- The twelve bytes of a SWI3 frame, lowest address first (46_swi3.md R281), for the state `s` before it. -/
def swi3Frame (s : State) : List Byte :=
  [setFlag .E true s.cc, s.a, s.b, s.dp, highByte s.x, lowByte s.x, highByte s.y, lowByte s.y, highByte s.u, lowByte s.u,
   highByte s.pc, lowByte s.pc]

/-! ## The accesses of a step, as 20_memory.md R59 and R65 list them -/

/-- What an instruction does at the address of its operand (20_memory.md R59). -/
inductive DataUse where
  | modify   -- the byte is read, then written
  | test     -- the byte is read
  | compare  -- the word is read
  deriving DecidableEq, Repr

/-- The data an instruction accesses: its use, and the address its operand stage resolves from the state `u` after the
opcode bytes. None for JMP, the long branches, the Immediate compares and SWI3 (20_memory.md R65 steps 5 to 7; decision
D21). -/
def dataUse (i : Instr) (u : State) : Option (DataUse × Word) :=
  match i with
  | .negDirect dd | .comDirect dd | .lsrDirect dd | .rorDirect dd | .asrDirect dd | .aslDirect dd | .rolDirect dd
  | .decDirect dd | .incDirect dd | .clrDirect dd => some (.modify, (resolveDirect dd u).value)
  | .negIndexed ix | .comIndexed ix | .lsrIndexed ix | .rorIndexed ix | .asrIndexed ix | .aslIndexed ix
  | .rolIndexed ix | .decIndexed ix | .incIndexed ix | .clrIndexed ix =>
    some (.modify, (resolveIndexed pcrBase ix u).1.value)
  | .negExtended ea | .comExtended ea | .lsrExtended ea | .rorExtended ea | .asrExtended ea | .aslExtended ea
  | .rolExtended ea | .decExtended ea | .incExtended ea | .clrExtended ea => some (.modify, ea)
  | .tstDirect dd => some (.test, (resolveDirect dd u).value)
  | .tstIndexed ix => some (.test, (resolveIndexed pcrBase ix u).1.value)
  | .tstExtended ea => some (.test, ea)
  | .cmpdDirect dd | .cmpyDirect dd => some (.compare, (resolveDirect dd u).value)
  | .cmpdIndexed ix | .cmpyIndexed ix => some (.compare, (resolveIndexed pcrBase ix u).1.value)
  | .cmpdExtended ea | .cmpyExtended ea => some (.compare, ea)
  | .jmpDirect _ | .jmpIndexed _ | .jmpExtended _ | .lbrn _ | .lbhi _ | .lbls _ | .lbcc _ | .lbcs _ | .lbne _
  | .lbeq _ | .lbvc _ | .lbvs _ | .lbpl _ | .lbmi _ | .lbge _ | .lblt _ | .lbgt _ | .lble _ | .swi3
  | .cmpdImmediate _ | .cmpyImmediate _ => none

/-- The bytes at `n` rising addresses are read, addresses modulo 65536. -/
def byteReads (a : Word) (n : Nat) : List Access := (List.range n).map fun k => .read (BitVec.ofNat 16 (a.toNat + k))

/-- The pointer of an indirect Indexed operand is read, high byte first, at the address its sub-mode gives without the
indirect flag (20_memory.md R65 step 4). -/
def pointerReads (i : Instr) (u : State) : List Access :=
  match indexedOperand i with
  | some (.mode r true m) => byteReads (resolveIndexed pcrBase (.mode r false m) u).1.value 2
  | _ => []

/-- The data accesses of an instruction that ends in the state `t` (20_memory.md R65 steps 5 and 6). -/
def dataAccesses (i : Instr) (u t : State) : List Access :=
  match dataUse i u with
  | some (.modify, a) => [.read a, .write a (t.readByte a)]
  | some (.test, a) => [.read a]
  | some (.compare, a) => byteReads a 2
  | none => []

/-- SWI3's accesses: the frame is written from its highest byte down, then the vector word is read (20_memory.md R65
step 7). -/
def swi3Accesses (vector : Word) (u : State) : List Access :=
  ((List.range 12).map fun k => .write (u.s - BitVec.ofNat 16 (k + 1)) ((swi3Frame u).getD (11 - k) 0#8)) ++
    byteReads vector 2

/-! ## The assigned encodings, as 42_engine.md R190 lists them -/

/-- The page-1 low nibbles with an operation (30_encoding.md R83). -/
def pageOneNibbles : List Nat := [0x0, 0x3, 0x4, 0x6, 0x7, 0x8, 0x9, 0xA, 0xC, 0xD, 0xE, 0xF]

/-- The opcode has a table entry (42_engine.md R190). -/
def AssignedOpcode (page : Page) (op : Nat) : Prop :=
  match page with
  | .one => op / 16 ∈ [0x0, 0x6, 0x7] ∧ op % 16 ∈ pageOneNibbles
  | .two => (0x21 ≤ op ∧ op ≤ 0x2F) ∨ op = 0x3F ∨ (op / 16 ∈ [0x8, 0x9, 0xA, 0xB] ∧ op % 16 ∈ [0x3, 0xC])

/-- The opcode selects an Indexed format (42_engine.md R190). -/
def IndexedOpcode (page : Page) (op : Nat) : Prop :=
  match page with
  | .one => op / 16 = 0x6 ∧ op % 16 ∈ pageOneNibbles
  | .two => op = 0xA3 ∨ op = 0xAC

/-- The 32 postbytes of 30_encoding.md R92: bit 7 set and low nibble 0x7, 0xA, 0xE or 0xF. -/
def InvalidPostbyte (pb : Nat) : Prop := 128 ≤ pb ∧ pb % 16 ∈ [0x7, 0xA, 0xE, 0xF]

/-- A stream begins with the given bytes. -/
def BeginsWith (st : Nat → Byte) (bs : List Byte) : Prop := ∀ k, k < bs.length → st k = bs.getD k 0#8

end Sys2Proof.Machine
end

