-- ==== Sys2Proof/Certificates/Slice0/Obligations.lean ====
section
/-! DEFINITION. The statements about the core, for the provers. Each is about every state and every operand; the terms
they share (the forms of an instruction, what two states have in common, the assigned encodings) stand in Safety.lean. -/

open Sys2Proof Sys2Proof.Machine

/-! ## Encoding -/

/-- Any stream that begins with the bytes of a well-formed instruction decodes to that instruction (30_encoding.md R81,
R83 to R88). The opcode bytes are the default OPCODE_MAP (assumption log entry 5); that the register field of a
PC-relative postbyte is an operand of the instruction is the model's (log entry 21). -/
def Obligations.EncodedInstructionDecodesBack : Prop :=
  ∀ i : Instr, i.wf = true → ∀ st : Nat → Byte, BeginsWith st (encode i) → decode st = .ok i

/-- A stream that decodes begins with the bytes of the instruction it decodes to, which is well-formed: no two byte
sequences stand for one instruction of the MODEL. The spec does not say so: 30_encoding.md R88 and
93_implementation_defined.md U12 make the four register fields of a PC-relative postbyte one operation, and the
statement holds because the model's instruction keeps that field (DEDUCED, assumption log entry 21). The opcode bytes
are the default OPCODE_MAP (log entry 5). -/
def Obligations.DecodedStreamBeginsWithEncoding : Prop :=
  ∀ (st : Nat → Byte) (i : Instr), decode st = .ok i → i.wf = true ∧ BeginsWith st (encode i)

/-- The twelve worked encodings of 30_encoding.md R97, under the default OPCODE_MAP (assumption log entry 5). -/
def Obligations.WorkedEncodingsDecode : Prop :=
  decode (streamOf [0x00, 0xBA]) = .ok (.negDirect 0xBA) ∧
  decode (streamOf [0x63, 0x84]) = .ok (.comIndexed (.mode .x false .noOffset)) ∧
  decode (streamOf [0x6C, 0x80]) = .ok (.incIndexed (.mode .x false .postInc1)) ∧
  decode (streamOf [0x6A, 0x3F]) = .ok (.decIndexed (.offset5 .y (-1))) ∧
  decode (streamOf [0x68, 0xC8, 0x10]) = .ok (.aslIndexed (.mode .u false (.offset8 0x10))) ∧
  decode (streamOf [0x6D, 0xE9, 0x12, 0x34]) = .ok (.tstIndexed (.mode .s false (.offset16 0x1234))) ∧
  decode (streamOf [0x6E, 0x94]) = .ok (.jmpIndexed (.mode .x true .noOffset)) ∧
  decode (streamOf [0x7F, 0x20, 0x00]) = .ok (.clrExtended 0x2000) ∧
  decode (streamOf [0x10, 0x26, 0xFF, 0xF8]) = .ok (.lbne 0xFFF8) ∧
  decode (streamOf [0x10, 0x3F]) = .ok .swi3 ∧
  decode (streamOf [0x10, 0x83, 0x12, 0x34]) = .ok (.cmpdImmediate 0x1234) ∧
  decode (streamOf [0x10, 0xAC, 0x89, 0x01, 0x00]) = .ok (.cmpyIndexed (.mode .x false (.offset16 0x0100)))

/-- The decoder reports an unassigned opcode exactly when 42_engine.md R190 gives the opcode no entry, whatever bytes
follow (60_exceptions.md R307). AssignedOpcode is the default OPCODE_MAP (assumption log entry 5). -/
def Obligations.UnassignedOpcodesAreRejected : Prop :=
  ∀ (st : Nat → Byte) (page : Page) (op : Byte),
    decode st = .error (.unassigned page op) ↔
      opcodePage st = page ∧ opcodeByte st = op ∧ ¬ AssignedOpcode page op.toNat

/-- The decoder reports an invalid postbyte exactly when the opcode is an Indexed one and the byte after it is one of
the 32 of 30_encoding.md R92. IndexedOpcode is the default OPCODE_MAP (PRESUMED, assumption log entry 5), and that an
invalid postbyte is rejected the spec's decision D14 (log entry 23). -/
def Obligations.InvalidPostbytesAreRejected : Prop :=
  ∀ (st : Nat → Byte) (pb : Byte),
    decode st = .error (.invalidPostbyte pb) ↔
      IndexedOpcode (opcodePage st) (opcodeByte st).toNat ∧ st (opcodePage st).opcodeBytes = pb ∧
        InvalidPostbyte pb.toNat

/-- The shortest instruction is 2 bytes and the longest 5 (30_encoding.md R80), and the indirect flag does not change
the length (R89). -/
def Obligations.InstructionLengths : Prop :=
  (∀ i : Instr, 2 ≤ (encode i).length ∧ (encode i).length ≤ 5) ∧
  (∃ i, (encode i).length = 2) ∧ (∃ i, (encode i).length = 5) ∧
  (∀ r m, (Indexed.mode r true m).bytes.length = (Indexed.mode r false m).bytes.length)

/-! ## The step -/

/-- When the stream at PC decodes to an instruction, the step is the execution of that instruction from the state whose
PC is past the opcode byte or bytes (42_engine.md R180 to R184); that PC wraps is the spec's decision D20 (assumption
log entry 15). -/
def Obligations.StepExecutesDecodedInstruction : Prop :=
  ∀ (s : State) (i : Instr), decode (instructionStream s) = .ok i →
    step s = exec i (s.setPc (advanceWord s.pc (opcodePage (instructionStream s)).opcodeBytes))

/-- Every instruction completes from every state: no instruction faults after its operand was resolved (42_engine.md
R187). -/
def Obligations.EveryInstructionCompletes : Prop :=
  ∀ (i : Instr) (s : State), ∃ t, exec i s = .next t

/-- After an instruction that does not replace PC, PC is the address of the byte after its last byte, modulo 65536
(10_state.md R28). The wrap of PC (R29) is the spec's decision D20 (assumption log entry 15). -/
def Obligations.PcMovesPastInstruction : Prop :=
  ∀ (s : State) (i : Instr), decode (instructionStream s) = .ok i → replacesPc i = false →
    ∃ t, step s = .next t ∧ t.pc.toNat = (s.pc.toNat + (encode i).length) % 65536

/-- The two ways a step can stop, and when: an unassigned opcode, and an Indexed opcode with an invalid postbyte
(60_exceptions.md R301, R303). That an invalid postbyte faults is the spec's decision D14 (log entry 23). The first
holds under UNASSIGNED_POLICY = fault, the model's choice (assumption log entry 2). AssignedOpcode and IndexedOpcode
are the default OPCODE_MAP (PRESUMED, log entry 5). -/
def Obligations.StepFaultsExactlyOnBadEncodings : Prop :=
  ∀ (s : State) (r : Fault), step s = .fault r ↔
    (∃ page op, r = .unimplementedOpcode page op ∧ opcodePage (instructionStream s) = page ∧
      opcodeByte (instructionStream s) = op ∧ ¬ AssignedOpcode page op.toNat) ∨
    (∃ pb, r = .invalidAddressingMode pb ∧
      IndexedOpcode (opcodePage (instructionStream s)) (opcodeByte (instructionStream s)).toNat ∧
      instructionStream s (opcodePage (instructionStream s)).opcodeBytes = pb ∧ InvalidPostbyte pb.toNat)

/-- No step raises OutOfRangeAddress (20_memory.md R71, 60_exceptions.md R302), and none is refused: a step completes
or faults (00_scope.md R13, 42_engine.md R187), so the refusal of the host's interface is never raised (DEDUCED,
assumption log entry 27). -/
def Obligations.StepNeverRefusedNorOutOfRange : Prop :=
  ∀ s : State, (∀ r, step s ≠ .refused r) ∧ step s ≠ .fault .outOfRangeAddress

/-- A faulting step has advanced PC past the opcode byte or bytes and changed nothing else (60_exceptions.md R306). The
state at a fault is the spec's decision D26, where the source allows any (DESIGN CHOICE, unsafe, assumption log entry
17); the wrap of PC is decision D20 (log entry 15). -/
def Obligations.FaultLeavesAllButPc : Prop :=
  ∀ (s t : State) (r : Fault), executeInstruction s = .faulted r t →
    t = s.setPc (advanceWord s.pc (opcodePage (instructionStream s)).opcodeBytes)

/-- An unassigned opcode under each policy (42_engine.md R186): the fault with page and byte, or a completed step of
zero cycles, from the state with PC past the opcode byte or bytes; and the step takes the model's policy (assumption
log entry 2). The state at the fault is decision D26 (log entry 17), the wrap of PC decision D20 (log entry 15). -/
def Obligations.UnassignedOpcodeOutcome : Prop :=
  (∀ page op s, unassignedOutcome .fault page op s = .faulted (.unimplementedOpcode page op) s) ∧
  (∀ page op s, unassignedOutcome .nop page op s = .completed s 0) ∧
  (∀ s page op, decode (instructionStream s) = .error (.unassigned page op) →
    executeInstruction s = unassignedOutcome unassignedPolicy page op
      (s.setPc (advanceWord s.pc (opcodePage (instructionStream s)).opcodeBytes)))

/-- The page dispatch is one-level: the bytes 0x10 0x10 are an unassigned page-2 opcode, and 0x11 an unassigned page-1
opcode (30_encoding.md R82, R91), under the default OPCODE_MAP (assumption log entry 5). -/
def Obligations.PageDispatchIsOneLevel : Prop :=
  ∀ st : Nat → Byte,
    (st 0 = 0x10#8 → opcodePage st = .two ∧ opcodeByte st = st 1) ∧
    (st 0 = 0x10#8 → st 1 = 0x10#8 → decode st = .error (.unassigned .two 0x10#8)) ∧
    (st 0 = 0x11#8 → decode st = .error (.unassigned .one 0x11#8))

/-- The cycle count of each completed step (70_reset_and_hazards.md R349), the counts of CMPD and CMPY being the
parameter CMP16_CYCLES, whose value is the model's choice (assumption log entry 7). -/
def Obligations.CompletedStepsReturnCycleCounts : Prop :=
  ∀ (s : State) (i : Instr), decode (instructionStream s) = .ok i →
    ∃ t n, executeInstruction s = .completed t n ∧ step s = .next t ∧
      (∀ dd, i ∈ [Instr.negDirect dd, .comDirect dd, .lsrDirect dd, .rorDirect dd, .asrDirect dd, .aslDirect dd,
        .rolDirect dd, .decDirect dd, .incDirect dd, .tstDirect dd, .clrDirect dd] → n = 6) ∧
      (∀ ix, i ∈ [Instr.negIndexed ix, .comIndexed ix, .lsrIndexed ix, .rorIndexed ix, .asrIndexed ix, .aslIndexed ix,
        .rolIndexed ix, .decIndexed ix, .incIndexed ix, .tstIndexed ix, .clrIndexed ix] → n = 4 + ix.bytes.length) ∧
      (∀ ea, i ∈ [Instr.negExtended ea, .comExtended ea, .lsrExtended ea, .rorExtended ea, .asrExtended ea,
        .aslExtended ea, .rolExtended ea, .decExtended ea, .incExtended ea, .tstExtended ea, .clrExtended ea] → n = 7) ∧
      (∀ dd, i = .jmpDirect dd → n = 3) ∧
      (∀ ix, i = .jmpIndexed ix → n = 1 + ix.bytes.length) ∧
      (∀ ea, i = .jmpExtended ea → n = 4) ∧
      (∀ off taken, (i, taken) ∈ branchConditions s off → n = if taken then 6 else 5) ∧
      (i = .swi3 → n = 19) ∧
      (∀ w, i = .cmpdImmediate w ∨ i = .cmpyImmediate w → n = cmp16Cycles.immediate) ∧
      (∀ dd, i = .cmpdDirect dd ∨ i = .cmpyDirect dd → n = cmp16Cycles.direct) ∧
      (∀ ix, i = .cmpdIndexed ix ∨ i = .cmpyIndexed ix → n = cmp16Cycles.indexedBase + ix.bytes.length) ∧
      (∀ ea, i = .cmpdExtended ea ∨ i = .cmpyExtended ea → n = cmp16Cycles.extended)

/-- The accesses of a step, the whole list in the order of 20_memory.md R65 with the widths of R59: every instruction
byte in ascending order; the pointer of an indirect operand; the data read and the data write; for SWI3 the twelve
writes and then the vector. A step that faults reads the opcode byte or bytes and, where it is the offender, the
postbyte. The writes of the list, applied in order, give the memory after the step. The order is the spec's decision
D22 (assumption log entry 18), the data accesses of CLR, TST and JMP decision D21 (log entry 22), the wrap of addresses
decision D20 (log entry 15), the two reads of a compare with memory decision D35 (log entry 26), the twelve writes
below S decision D4 (log entry 16), the pointer of an indirect auto sub-mode and the Extended address without a pointer
decisions D17 and D18 (log entry 23); the vector, the base of a PC-relative pointer and the opcode bytes are the
model's values (log entries 4, 3 and 5). -/
def Obligations.AccessListGivesMemoryAfterStep : Prop :=
  ∀ s : State,
    let page := opcodePage (instructionStream s)
    let u := s.setPc (advanceWord s.pc page.opcodeBytes)
    (∀ i, decode (instructionStream s) = .ok i → ∃ t, step s = .next t ∧
      stepAccesses s = byteReads s.pc (encode i).length ++
        (if i = .swi3 then swi3Accesses swi3Vector u else pointerReads i u ++ dataAccesses i u t) ∧
      t.mem = (stepAccesses s).foldl applyAccess s.mem) ∧
    (∀ op, decode (instructionStream s) = .error (.unassigned page op) →
      stepAccesses s = byteReads s.pc page.opcodeBytes) ∧
    (∀ pb, decode (instructionStream s) = .error (.invalidPostbyte pb) →
      stepAccesses s = byteReads s.pc (page.opcodeBytes + 1))

/-! ## Memory -/

/-- `MemRead(a, 1)` after `MemWrite(b, 1, v)` gives v at b and the old byte everywhere else (20_memory.md R53, R54). -/
def Obligations.ByteWrittenReadsBack : Prop :=
  ∀ (s : State) (a b : Word) (v : Byte),
    (s.writeByte b v).readByte b = v ∧ (a ≠ b → (s.writeByte b v).readByte a = s.readByte a) ∧
    (∀ i, i ≠ b.toNat → Memory.read (s.writeByte b v).mem i = Memory.read s.mem i) ∧
    SameRegisters s (s.writeByte b v) ∧ (s.writeByte b v).pc = s.pc ∧ (s.writeByte b v).cc = s.cc

/-- A word read is big-endian and its second address wraps modulo 65536 (20_memory.md R55, R56); the wrap is the spec's
decision D20 (assumption log entry 15). -/
def Obligations.WordReadIsBigEndian : Prop :=
  ∀ (s : State) (a : Word),
    (s.readWord a).toNat =
      (Memory.read s.mem a.toNat).toNat * 256 + (Memory.read s.mem ((a.toNat + 1) % 65536)).toNat

/-- Two memories in canonical form whose bytes all read the same are the same data: the form the model keeps memory in
loses and adds nothing. -/
def Obligations.CanonicalMemoriesWithEqualBytesAreEqual : Prop :=
  ∀ m n : Memory, Memory.wf m = true → Memory.wf n = true → (∀ i, Memory.read m i = Memory.read n i) → m = n

/-- Every step from a state whose memory is in canonical form ends in one. -/
def Obligations.StepKeepsMemoryCanonical : Prop :=
  ∀ s t : State, s.Inv → step s = .next t → t.Inv

/-- The memory of the reset state is in canonical form; that it lists nothing is the model's choice (assumption log
entry 9). -/
def Obligations.ResetMemoryIsCanonical : Prop := State.reset.Inv

/-- No instruction reads or writes an index of 65536 or more (20_memory.md R51): a step leaves those bytes alone, and
two states that agree on everything else step to states that agree on everything else. That an address selects the
entry of the same index is the spec's decision D19 (assumption log entry 6), and that a word read at 0xFFFF stays below
65536 its decision D20 (log entry 15). -/
def Obligations.StepsIgnoreMemoryAbove64K : Prop :=
  (∀ s t : State, step s = .next t → ∀ i, 65536 ≤ i → Memory.read t.mem i = Memory.read s.mem i) ∧
  (∀ s s' : State, SameRegisters s s' → s'.pc = s.pc → s'.cc = s.cc →
    (∀ i, i < 65536 → Memory.read s'.mem i = Memory.read s.mem i) →
    (∀ r, step s = .fault r → step s' = .fault r) ∧
    (∀ t, step s = .next t → ∃ t', step s' = .next t' ∧ SameRegisters t t' ∧ t'.pc = t.pc ∧ t'.cc = t.cc ∧
      ∀ i, i < 65536 → Memory.read t'.mem i = Memory.read t.mem i))

/-- The host's direct access: an index outside the image is OutOfRangeAddress, a word read does not wrap, and a write
inside the image changes that byte alone (20_memory.md R66, R71). That the word read does not wrap is the spec's
decision D20 (assumption log entry 15), and MEM_SIZE is the model's value (log entry 6). -/
def Obligations.HostAccessOfMemory : Prop :=
  ∀ (s : State) (i : Nat) (v : Byte),
    (hostReadByte s i = if i < memSize then .ok (Memory.read s.mem i) else .error .outOfRangeAddress) ∧
    (memSize ≤ i + 1 → hostReadWord s i = .error .outOfRangeAddress) ∧
    (i + 1 < memSize → ∃ w, hostReadWord s i = .ok w ∧
      w.toNat = (Memory.read s.mem i).toNat * 256 + (Memory.read s.mem (i + 1)).toNat) ∧
    (memSize ≤ i → hostWriteByte s i v = .error .outOfRangeAddress) ∧
    (i < memSize → ∃ t, hostWriteByte s i v = .ok t ∧ Memory.read t.mem i = v ∧
      SameBytesExcept (fun j => j = i) s t ∧ SameRegisters s t ∧ t.pc = s.pc ∧ t.cc = s.cc)

/-- Whatever the host writes between two steps, and whatever the steps do, the memory stays in canonical form
(10_state.md R39, 60_exceptions.md R309). That a run ends with the last event or at the first fault is the model's
choice (assumption log entry 28), and that the host moves between steps only the spec's decision D29 (log entry 20). -/
def Obligations.PlatformRunsKeepMemoryCanonical : Prop :=
  ∀ (es : List PlatformEvent) (s t : State), s.Inv → platformRun es s = .next t → t.Inv

/-! ## Whole-machine rules -/

/-- No instruction writes A, B or DP (10_state.md R21, R23). -/
def Obligations.StepsNeverWriteAccumulatorsOrDp : Prop :=
  ∀ s t : State, step s = .next t → t.a = s.a ∧ t.b = s.b ∧ t.dp = s.dp

/-- X, Y and U change only through an auto-increment or auto-decrement operand on that register with the indirect flag
clear, and S only so or through SWI3 (10_state.md R24, R25). That SWI3 moves S and leaves U is the spec's decision D4
(DESIGN CHOICE, unsafe, assumption log entry 16), and that the indirect flag suppresses the write alone its decision
D17 (log entry 23). -/
def Obligations.BaseRegistersChangeOnlyByAutoModes : Prop :=
  ∀ (i : Instr) (s t : State), exec i s = .next t → ∀ r : BaseReg,
    ¬ AutoModifies i r → ¬ (r = .s ∧ i = .swi3) → t.base r = s.base r

/-- No step writes I, H or F, and E only changes by SWI3, which sets it (10_state.md R31, R33; 46_swi3.md R280). That a
flag no rule names stays is the spec's decision D11 (assumption log entry 13), and that SWI3 writes no flag but E is
log entry 16. -/
def Obligations.MaskFlagsChangeOnlyBySwi3 : Prop :=
  ∀ (i : Instr) (s t : State), exec i s = .next t →
    t.flag .I = s.flag .I ∧ t.flag .H = s.flag .H ∧ t.flag .F = s.flag .F ∧
    t.flag .E = if i = .swi3 then true else s.flag .E

/-- I, H, F and E have no effect (10_state.md R33): two states that differ in them alone execute every instruction
other than SWI3 (which stacks CC) to states that differ in them alone. -/
def Obligations.MaskFlagsHaveNoEffect : Prop :=
  ∀ (i : Instr) (s s' t : State), i ≠ .swi3 → s' = s.setCc s'.cc →
    (∀ f, f ∈ [Flag.C, .V, .Z, .N] → s'.flag f = s.flag f) → exec i s = .next t →
    ∃ t', exec i s' = .next t' ∧ t' = t.setCc t'.cc ∧ ∀ f, f ∈ [Flag.C, .V, .Z, .N] → t'.flag f = t.flag f

/-! ## Registers and flags -/

/-- D is A : B with A high, and a write of D writes A and B and nothing else (10_state.md R22). -/
def Obligations.DIsTheViewOfAAndB : Prop :=
  ∀ (s : State) (v : Word),
    s.d.toNat = s.a.toNat * 256 + s.b.toNat ∧
    (s.setD v).a.toNat = v.toNat / 256 ∧ (s.setD v).b.toNat = v.toNat % 256 ∧ (s.setD v).d = v ∧
    s.setD v = { s with a := (s.setD v).a, b := (s.setD v).b }

/-- The bits of CC (10_state.md R30), and a setter writes its own bit and disturbs no other (R32, which gives the seven
it names and derives the setter of E). -/
def Obligations.FlagSettersWriteOneBit : Prop :=
  ∀ (cc : Byte) (v : Bool),
    getFlag .C cc = cc.getLsbD 0 ∧ getFlag .V cc = cc.getLsbD 1 ∧ getFlag .Z cc = cc.getLsbD 2 ∧
    getFlag .N cc = cc.getLsbD 3 ∧ getFlag .I cc = cc.getLsbD 4 ∧ getFlag .H cc = cc.getLsbD 5 ∧
    getFlag .F cc = cc.getLsbD 6 ∧ getFlag .E cc = cc.getLsbD 7 ∧
    ∀ f g : Flag, getFlag f (setFlag f v cc) = v ∧ (g ≠ f → getFlag g (setFlag f v cc) = getFlag g cc)

/-! ## The ALU primitives -/

/-- Two's complement at both widths and its corner cases (41_alu_primitives.md R150). -/
def Obligations.TwosComplementIsNegation : Prop :=
  (∀ v : Byte, (twosComplement8 v).toNat = (256 - v.toNat) % 256) ∧
  (∀ v : Word, (twosComplement16 v).toNat = (65536 - v.toNat) % 65536) ∧
  twosComplement8 0#8 = 0#8 ∧ twosComplement16 0#16 = 0#16 ∧ twosComplement8 0x80#8 = 0x80#8 ∧
  twosComplement16 0x8000#16 = 0x8000#16 ∧ twosComplement8 0x01#8 = 0xFF#8

/-- The adder at both widths: the sum modulo the width; H, C and V raised when enabled and their condition holds, never
cleared; the other flags untouched (41_alu_primitives.md R153 to R155). The overflow condition and the word half-carry
are the spec's decisions D34 and D33 (assumption log entry 14). -/
def Obligations.AdderRaisesFlags : Prop :=
  (∀ (a b : Byte) (h c v : Bool) (cc : Byte),
    (binaryAdd8 a b h c v cc).1.toNat = (a.toNat + b.toNat) % 256 ∧
    ∀ f, getFlag f (binaryAdd8 a b h c v cc).2 =
      (getFlag f cc || match f with
        | .H => h && decide (a.toNat % 16 + b.toNat % 16 > 0x0F)
        | .C => c && decide (a.toNat + b.toNat > 0xFF)
        | .V => v && decide (a.toNat + b.toNat > 0xFF)
        | _ => false)) ∧
  (∀ (a b : Word) (h c v : Bool) (cc : Byte),
    (binaryAdd16 a b h c v cc).1.toNat = (a.toNat + b.toNat) % 65536 ∧
    ∀ f, getFlag f (binaryAdd16 a b h c v cc).2 =
      (getFlag f cc || match f with
        | .H => h && decide (a.toNat % 256 + b.toNat % 256 > 0xFF)
        | .C => c && decide (a.toNat + b.toNat > 0xFFFF)
        | .V => v && decide (a.toNat + b.toNat > 0xFFFF)
        | _ => false))

/-! ## The address calculator -/

/-- Direct (40_addressing.md R111): the address is DP : dd and one byte is consumed; the operand stage moves PC by that
byte and changes nothing else. The wrap of PC is the spec's decision D20 (assumption log entry 15); that the engine
moves PC after the resolver is decision D15 (log entry 19). -/
def Obligations.DirectOperandAddress : Prop :=
  ∀ (dd : Byte) (s : State),
    (resolveDirect dd s).consumed = 1 ∧ (resolveDirect dd s).value.toNat = s.dp.toNat * 256 + dd.toNat ∧
    (directStage dd s).1 = (resolveDirect dd s).value ∧ (directStage dd s).2 = s.setPc (advanceWord s.pc 1)

/-- Immediate and Extended (40_addressing.md R112, R113): the word in the instruction, two bytes; the operand stage
moves PC by two and changes nothing else. That Extended makes no further read is the spec's decision D18 (assumption
log entry 23), the wrap of PC decision D20 (log entry 15); that the engine moves PC after the resolver is decision D15
(log entry 19). -/
def Obligations.ImmediateAndExtendedOperands : Prop :=
  ∀ (w : Word) (s : State),
    resolveImmediate w = ⟨2, w⟩ ∧ resolveExtended w = ⟨2, w⟩ ∧
    immediateStage w s = (w, s.setPc (advanceWord s.pc 2)) ∧ extendedStage w s = (w, s.setPc (advanceWord s.pc 2))

/-- The five-bit offset form (40_addressing.md R115): the register plus the offset modulo 65536, one byte, no
indirection and no register written. The wrap is the spec's decision D20 (assumption log entry 15). -/
def Obligations.FiveBitOffsetAddress : Prop :=
  ∀ (base : PcrBase) (r : BaseReg) (off : Int) (s : State),
    (resolveIndexed base (.offset5 r off) s).1.consumed = 1 ∧
    (((resolveIndexed base (.offset5 r off) s).1.value.toNat : Int) = ((s.base r).toNat + off) % 65536) ∧
    (resolveIndexed base (.offset5 r off) s).2 = s

/-- The auto sub-modes with the indirect flag clear (40_addressing.md R116 to R119, R130): the address is the old value
for the increments and the new one for the decrements, the base register takes the new value, nothing else changes. The
wrap is the spec's decision D20 (assumption log entry 15). -/
def Obligations.AutoSubModesStepTheBaseRegister : Prop :=
  ∀ (base : PcrBase) (r : BaseReg) (s : State) (m : SubMode) (address written : Nat),
    (m, address, written) ∈
      [(.postInc1, (s.base r).toNat, ((s.base r).toNat + 1) % 65536),
       (.postInc2, (s.base r).toNat, ((s.base r).toNat + 2) % 65536),
       (.preDec1, ((s.base r).toNat + 65535) % 65536, ((s.base r).toNat + 65535) % 65536),
       (.preDec2, ((s.base r).toNat + 65534) % 65536, ((s.base r).toNat + 65534) % 65536)] →
    (resolveIndexed base (.mode r false m) s).1.consumed = 1 ∧
    (resolveIndexed base (.mode r false m) s).1.value.toNat = address ∧
    ((resolveIndexed base (.mode r false m) s).2.base r).toNat = written ∧
    (resolveIndexed base (.mode r false m) s).2 =
      s.setBase r ((resolveIndexed base (.mode r false m) s).2.base r)

/-- The offset sub-modes with the indirect flag clear (40_addressing.md R120 to R125): the register plus nothing, B, A,
an 8-bit offset, a 16-bit offset (each signed) or D, modulo 65536, with no register written. The wrap (R132) is the
spec's decision D20 (assumption log entry 15). -/
def Obligations.OffsetSubModeAddresses : Prop :=
  ∀ (base : PcrBase) (r : BaseReg) (s : State) (oo : Byte) (off : Word) (m : SubMode) (n : Nat) (offset : Int),
    (m, n, offset) ∈
      [(.noOffset, 1, (0 : Int)), (.accB, 1, s.b.toInt), (.accA, 1, s.a.toInt), (.offset8 oo, 2, oo.toInt),
       (.offset16 off, 3, off.toInt), (.accD, 1, ((s.a.toNat * 256 + s.b.toNat : Nat) : Int))] →
    (resolveIndexed base (.mode r false m) s).1.consumed = n ∧
    (((resolveIndexed base (.mode r false m) s).1.value.toNat : Int) = ((s.base r).toNat + offset) % 65536) ∧
    (resolveIndexed base (.mode r false m) s).2 = s

/-- The PC-relative sub-modes with the indirect flag clear, for every PCR_BASE (40_addressing.md R126, R127): the base
is P, P + 1 or P + n, and the selected register is not used. The base the step takes is the model's choice (assumption
log entry 3), and that the sum wraps is the spec's decision D20 (log entry 15). -/
def Obligations.PcRelativeAddresses : Prop :=
  ∀ (base : PcrBase) (r : BaseReg) (s : State) (oo : Byte) (off : Word) (m : SubMode) (n : Nat) (offset : Int),
    (m, n, offset) ∈ [(SubMode.pcr8 oo, 2, oo.toInt), (SubMode.pcr16 off, 3, off.toInt)] →
    (resolveIndexed base (.mode r false m) s).1.consumed = n ∧
    (((resolveIndexed base (.mode r false m) s).1.value.toNat : Int) =
      (s.pc.toNat + (match base with | .entry => 0 | .afterPostbyte => 1 | .nextInstruction => n) + offset) % 65536) ∧
    (resolveIndexed base (.mode r false m) s).2 = s

/-- The indirect flag (40_addressing.md R129, R131): the result is the word at the address the sub-mode computes
without the flag, the bytes consumed are the same, and no register is written, the auto sub-modes included (the spec's
decision D17, assumption log entry 23). -/
def Obligations.IndirectFlagReadsThePointer : Prop :=
  ∀ (base : PcrBase) (r : BaseReg) (m : SubMode) (s : State),
    (resolveIndexed base (.mode r true m) s).1.consumed = (resolveIndexed base (.mode r false m) s).1.consumed ∧
    (resolveIndexed base (.mode r true m) s).1.value = s.readWord (resolveIndexed base (.mode r false m) s).1.value ∧
    (resolveIndexed base (.mode r true m) s).2 = s

/-- The Indexed operand stage: the resolver's result under the model's PCR_BASE, its write-back, and PC moved past the
operand bytes (42_engine.md R183); memory, CC, A, B and DP are untouched. PCR_BASE is the model's choice (assumption
log entry 3), and the wrap of PC the spec's decision D20 (log entry 15); that the engine moves PC after the resolver is
decision D15 (log entry 19). -/
def Obligations.IndexedOperandStage : Prop :=
  ∀ (ix : Indexed) (s : State),
    (indexedStage ix s).1 = (resolveIndexed pcrBase ix s).1.value ∧
    (indexedStage ix s).2.pc.toNat = (s.pc.toNat + ix.bytes.length) % 65536 ∧
    (∀ r, (indexedStage ix s).2.base r = (resolveIndexed pcrBase ix s).2.base r) ∧
    (indexedStage ix s).2.mem = s.mem ∧ (indexedStage ix s).2.cc = s.cc ∧ (indexedStage ix s).2.a = s.a ∧
    (indexedStage ix s).2.b = s.b ∧ (indexedStage ix s).2.dp = s.dp

/-! ## Read-modify-write instructions: result, flags and frame of the three forms

In each, `ea` is the address and `s` the state the form's operand stage gives, `v` the byte at `ea` before. -/

/-- NEG (43_rmw.md R201): the result is 256 - v modulo 256; V, Z, N; and C by NEG_C_MODE, whose value is the model's
choice (assumption log entry 1). The first clause says what C becomes for every value of the parameter. -/
def Obligations.NegResult : Prop :=
  (∀ (mode : NegCMode) (v cc : Byte), getFlag .C (negByte mode v cc).2 =
    match mode with
    | .clear => false
    | .borrow => decide (v ≠ 0#8)
    | .unchanged => getFlag .C cc) ∧
  InThreeForms .negDirect .negIndexed .negExtended fun s ea o =>
    let v := s.readByte ea
    ∃ r : Byte, r.toNat = (256 - v.toNat) % 256 ∧
      CompletesStoring s ea o r [.C, .V, .Z, .N] fun t =>
        t.flag .V = decide (v.toNat = 128) ∧ t.flag .Z = decide (r.toNat = 0) ∧ t.flag .N = decide (128 ≤ r.toNat) ∧
        t.flag .C = getFlag .C (negByte negCMode v s.cc).2

/-- NEG is its own inverse on every byte, under every NEG_C_MODE, and 0x80 is a fixed point (43_rmw.md R213); of the
byte only, whatever the flags. -/
def Obligations.NegTwiceIsIdentity : Prop :=
  ∀ (mode : NegCMode) (v cc cc' : Byte),
    (negByte mode (negByte mode v cc).1 cc').1 = v ∧ (negByte mode 0x80#8 cc).1 = 0x80#8

/-- COM (43_rmw.md R202): 255 - v; C set, V cleared, Z and N from the result. -/
def Obligations.ComResult : Prop :=
  InThreeForms .comDirect .comIndexed .comExtended fun s ea o =>
    let v := s.readByte ea
    ∃ r : Byte, r.toNat = 255 - v.toNat ∧
      CompletesStoring s ea o r [.C, .V, .Z, .N] fun t =>
        t.flag .C = true ∧ t.flag .V = false ∧ t.flag .Z = decide (r.toNat = 0) ∧ t.flag .N = decide (128 ≤ r.toNat)

/-- LSR (43_rmw.md R203): v / 2; C the old bit 0, N cleared, Z from the result, V not written. -/
def Obligations.LsrResult : Prop :=
  InThreeForms .lsrDirect .lsrIndexed .lsrExtended fun s ea o =>
    let v := s.readByte ea
    ∃ r : Byte, r.toNat = v.toNat / 2 ∧
      CompletesStoring s ea o r [.C, .Z, .N] fun t =>
        t.flag .C = decide (v.toNat % 2 = 1) ∧ t.flag .Z = decide (r.toNat = 0) ∧ t.flag .N = false

/-- ROR (43_rmw.md R204): v / 2 with the old C in bit 7; C the old bit 0, N and Z from the result, V not written. -/
def Obligations.RorResult : Prop :=
  InThreeForms .rorDirect .rorIndexed .rorExtended fun s ea o =>
    let v := s.readByte ea
    ∃ r : Byte, r.toNat = (if s.flag .C then 128 else 0) + v.toNat / 2 ∧
      CompletesStoring s ea o r [.C, .Z, .N] fun t =>
        t.flag .C = decide (v.toNat % 2 = 1) ∧ t.flag .Z = decide (r.toNat = 0) ∧ t.flag .N = s.flag .C

/-- ASR (43_rmw.md R205): v / 2 with bit 7 kept; C the old bit 0, N and Z from the result, V not written. -/
def Obligations.AsrResult : Prop :=
  InThreeForms .asrDirect .asrIndexed .asrExtended fun s ea o =>
    let v := s.readByte ea
    ∃ r : Byte, r.toNat = (if 128 ≤ v.toNat then 128 else 0) + v.toNat / 2 ∧
      CompletesStoring s ea o r [.C, .Z, .N] fun t =>
        t.flag .C = decide (v.toNat % 2 = 1) ∧ t.flag .Z = decide (r.toNat = 0) ∧ t.flag .N = decide (128 ≤ v.toNat)

/-- ASL (43_rmw.md R206): 2v modulo 256; C the old bit 7, V whether the old bits 7 and 6 differ, N and Z from the
result. -/
def Obligations.AslResult : Prop :=
  InThreeForms .aslDirect .aslIndexed .aslExtended fun s ea o =>
    let v := s.readByte ea
    ∃ r : Byte, r.toNat = 2 * v.toNat % 256 ∧
      CompletesStoring s ea o r [.C, .V, .Z, .N] fun t =>
        t.flag .C = decide (128 ≤ v.toNat) ∧ t.flag .V = decide (64 ≤ v.toNat ∧ v.toNat < 192) ∧
        t.flag .Z = decide (r.toNat = 0) ∧ t.flag .N = decide (128 ≤ r.toNat)

/-- ROL (43_rmw.md R207): 2v modulo 256 with the old C in bit 0; C, V, N and Z as for ASL. -/
def Obligations.RolResult : Prop :=
  InThreeForms .rolDirect .rolIndexed .rolExtended fun s ea o =>
    let v := s.readByte ea
    ∃ r : Byte, r.toNat = 2 * v.toNat % 256 + (if s.flag .C then 1 else 0) ∧
      CompletesStoring s ea o r [.C, .V, .Z, .N] fun t =>
        t.flag .C = decide (128 ≤ v.toNat) ∧ t.flag .V = decide (64 ≤ v.toNat ∧ v.toNat < 192) ∧
        t.flag .Z = decide (r.toNat = 0) ∧ t.flag .N = decide (128 ≤ r.toNat)

/-- DEC (43_rmw.md R208): v - 1 modulo 256; V when v was 0, N and Z from the result, C and H not written. -/
def Obligations.DecResult : Prop :=
  InThreeForms .decDirect .decIndexed .decExtended fun s ea o =>
    let v := s.readByte ea
    ∃ r : Byte, r.toNat = (v.toNat + 255) % 256 ∧
      CompletesStoring s ea o r [.V, .Z, .N] fun t =>
        t.flag .V = decide (v.toNat = 0) ∧ t.flag .Z = decide (r.toNat = 0) ∧ t.flag .N = decide (128 ≤ r.toNat)

/-- INC (43_rmw.md R209): v + 1 modulo 256; V when the low seven bits of v were all set (the spec's literal reading,
assumption log entry 13), N and Z from the result, C and H not written. -/
def Obligations.IncResult : Prop :=
  InThreeForms .incDirect .incIndexed .incExtended fun s ea o =>
    let v := s.readByte ea
    ∃ r : Byte, r.toNat = (v.toNat + 1) % 256 ∧
      CompletesStoring s ea o r [.V, .Z, .N] fun t =>
        t.flag .V = decide (v.toNat % 128 = 127) ∧ t.flag .Z = decide (r.toNat = 0) ∧ t.flag .N = decide (128 ≤ r.toNat)

/-- TST (43_rmw.md R210): N and Z from the byte, V cleared, C not written, memory not written. -/
def Obligations.TstResult : Prop :=
  InThreeForms .tstDirect .tstIndexed .tstExtended fun s ea o =>
    let v := s.readByte ea
    CompletesWithFlags s o [.V, .Z, .N] fun t =>
      t.flag .V = false ∧ t.flag .Z = decide (v.toNat = 0) ∧ t.flag .N = decide (128 ≤ v.toNat)

/-- CLR (43_rmw.md R211): 0 is stored; Z set, N, C and V cleared, whatever the byte was. -/
def Obligations.ClrResult : Prop :=
  InThreeForms .clrDirect .clrIndexed .clrExtended fun s ea o =>
    CompletesStoring s ea o 0#8 [.C, .V, .Z, .N] fun t =>
      t.flag .Z = true ∧ t.flag .N = false ∧ t.flag .C = false ∧ t.flag .V = false

/-! ## Control transfer -/

/-- JMP (44_jmp_lbranch.md R240): PC takes the resolved address; no flag, no byte and no other register changes beyond
the operand stage. -/
def Obligations.JmpResult : Prop :=
  InThreeForms .jmpDirect .jmpIndexed .jmpExtended fun s ea o => o = .next (s.setPc ea)

/-- The fifteen long branches (44_jmp_lbranch.md R241 to R256): with the first operand byte at PC, the next PC is PC +
2, plus the signed offset when the condition holds, modulo 65536, and nothing else changes. The PC the offset is added
to is the spec's decision D28 (assumption log entry 19), and the wrap (10_state.md R29) its decision D20 (log entry
15). -/
def Obligations.LongBranchTargets : Prop :=
  ∀ (s : State) (off : Word) (i : Instr) (taken : Bool), (i, taken) ∈ branchConditions s off →
    ∃ target : Word, exec i s = .next (s.setPc target) ∧
      ((target.toNat : Int) = (s.pc.toNat + 2 + if taken then off.toInt else 0) % 65536)

/-- The conditions that are each other's complement (44_jmp_lbranch.md R244, R254, R256): of LBHI and LBLS, LBGE and
LBLT, LBGT and LBLE exactly one jumps, for every offset that is not 0. That the offset counts from the next instruction
(R241), so that 0 is the one offset that does not leave it, is the spec's decision D28 (DESIGN CHOICE, unsafe,
assumption log entry 19), and the wrap of PC its decision D20 (log entry 15). -/
def Obligations.ComplementaryBranches : Prop :=
  ∀ (s : State) (off : Word) (i j : Instr), off ≠ 0#16 →
    (i, j) ∈ [(.lbhi off, .lbls off), (.lbge off, .lblt off), (.lbgt off, .lble off)] →
    ∃ t u : State, exec i s = .next t ∧ exec j s = .next u ∧ (t.pc = advanceWord s.pc 2 ↔ u.pc ≠ advanceWord s.pc 2)

/-! ## Word compares -/

/-- CMPD in its four forms (45_cmp16.md R270, R271): D is compared with the immediate word, or with the word at the
effective address. -/
def Obligations.CmpdResult : Prop :=
  ∀ s : State,
    (∀ w, ComparesTo (immediateStage w s).2 (exec (.cmpdImmediate w) s) (s.a.toNat * 256 + s.b.toNat) w.toNat) ∧
    InThreeForms .cmpdDirect .cmpdIndexed .cmpdExtended fun s ea o =>
      ComparesTo s o (s.a.toNat * 256 + s.b.toNat) (s.readWord ea).toNat

/-- CMPY in its four forms (45_cmp16.md R270, R272); in Indexed mode Y is the value after the write-back
(40_addressing.md R134). -/
def Obligations.CmpyResult : Prop :=
  ∀ s : State,
    (∀ w, ComparesTo (immediateStage w s).2 (exec (.cmpyImmediate w) s) s.y.toNat w.toNat) ∧
    InThreeForms .cmpyDirect .cmpyIndexed .cmpyExtended fun s ea o =>
      ComparesTo s o s.y.toNat (s.readWord ea).toNat

/-! ## The software interrupt -/

/-- SWI3 (46_swi3.md R280, R281), for any vector: E is set and no other flag changes; S goes down by twelve modulo
65536; the frame lies at S upwards, addresses modulo 65536; PC is the big-endian word at the vector in the memory AFTER
the pushes; A, B, DP, X, Y, U and every byte outside the frame are unchanged. The step's vector is the model's choice
(assumption log entry 4); that the frame lies on S is the spec's decision D4 (log entry 16), and that S and the frame's
addresses wrap its decision D20 (log entry 15). -/
def Obligations.Swi3StacksAndVectors : Prop :=
  (∀ s, exec .swi3 s = .next (enterTrap swi3Vector s)) ∧
  ∀ (vector : Word) (s : State),
    let t := enterTrap vector s
    t.flag .E = true ∧ SameFlagsExcept [.E] s t ∧
    t.s.toNat = (s.s.toNat + (65536 - 12)) % 65536 ∧
    (∀ k, k < 12 → Memory.read t.mem ((t.s.toNat + k) % 65536) = (swi3Frame s).getD k 0#8) ∧
    SameBytesExcept (fun i => ∃ k, k < 12 ∧ i = (t.s.toNat + k) % 65536) s t ∧
    t.pc.toNat = (Memory.read t.mem vector.toNat).toNat * 256 +
      (Memory.read t.mem ((vector.toNat + 1) % 65536)).toNat ∧
    t.a = s.a ∧ t.b = s.b ∧ t.dp = s.dp ∧ t.x = s.x ∧ t.y = s.y ∧ t.u = s.u

/-! ## The host's registers -/

/-- The host's register and flag mutators write what they name and nothing else (10_state.md R39, decision D29,
assumption log entry 20; D is A and B, R22), and each named predicate reads its own bit of CC (R30, R32). -/
def Obligations.HostMutatorsAndPredicates : Prop :=
  ∀ (s : State) (v : Byte) (w : Word),
    (hostMove (.setA v) s = .ok { s with a := v } ∧ hostMove (.setB v) s = .ok { s with b := v } ∧
      hostMove (.setDp v) s = .ok { s with dp := v } ∧ hostMove (.setCc v) s = .ok { s with cc := v } ∧
      hostMove (.setD w) s = .ok { s with a := BitVec.ofNat 8 (w.toNat / 256), b := BitVec.ofNat 8 w.toNat } ∧
      hostMove (.setPc w) s = .ok { s with pc := w } ∧ hostMove (.setX w) s = .ok { s with x := w } ∧
      hostMove (.setY w) s = .ok { s with y := w } ∧ hostMove (.setU w) s = .ok { s with u := w } ∧
      hostMove (.setS w) s = .ok { s with s := w }) ∧
    (∀ (f : Flag) (b : Bool), ∃ cc, hostMove (.setFlag f b) s = .ok { s with cc := cc } ∧
      getFlag f cc = b ∧ ∀ g, g ≠ f → getFlag g cc = getFlag g s.cc) ∧
    (carrySet s = s.cc.getLsbD 0 ∧ overflowSet s = s.cc.getLsbD 1 ∧ zeroSet s = s.cc.getLsbD 2 ∧
      negativeSet s = s.cc.getLsbD 3 ∧ irqMaskSet s = s.cc.getLsbD 4 ∧ halfCarrySet s = s.cc.getLsbD 5 ∧
      firqMaskSet s = s.cc.getLsbD 6)

/-! ## The parameters -/

/-- The machine under every value of the parameters (00_scope.md R6): its step looks the opcode up in OPCODE_MAP,
completes every instruction with the count CMP16_CYCLES gives, and takes UNASSIGNED_POLICY for an opcode without a row.
A completed step returns the count 0 for an unassigned opcode under nop and never else (60_exceptions.md R321). An
instruction depends on no parameter but NEG_C_MODE for NEG, PCR_BASE for a PC-relative operand and SWI3_VECTOR for
SWI3, and these as the rules of the three say. Memory of MEM_SIZE bytes in canonical form stays so. With the spec's
defaults the step is `step`; these are the model's choice (assumption log entries 1 to 7), and so is the shape that
every CMP16_CYCLES has (log entry 30); which opcode maps are legal is DEDUCED (log entry 29). -/
def Obligations.StepUnderEveryParameter : Prop :=
  (∀ s, stepWith defaultParameters s = step s) ∧
  (∀ (p : Parameters) (page : Page) (row : OpcodeRow), p.Legal → row ∈ p.opcodeMap page →
    lookupOpcode page row.opcode p.opcodeMap = some row.entry) ∧
  (∀ (p : Parameters) (s : State) (i : Instr), decode (instructionStream s) p.opcodeMap = .ok i →
    ∃ t, execWith p i (afterOpcode s) = .next t ∧ stepWith p s = .next t ∧
      executeInstructionWith p s = .completed t (cycleCount p.cmp16Cycles i (afterOpcode s))) ∧
  (∀ (p : Parameters) (s : State) (page : Page) (op : Byte),
    decode (instructionStream s) p.opcodeMap = .error (.unassigned page op) →
    executeInstructionWith p s = unassignedOutcome p.unassignedPolicy page op (afterOpcode s)) ∧
  (∀ (p : Parameters) (s t : State) (n : Nat), executeInstructionWith p s = .completed t n →
    (n = 0 ↔ p.unassignedPolicy = .nop ∧
      ∃ page op, decode (instructionStream s) p.opcodeMap = .error (.unassigned page op))) ∧
  (∀ (p q : Parameters) (i : Instr) (s : State), (IsNeg i → p.negCMode = q.negCMode) →
    (PcRelative i → p.pcrBase = q.pcrBase) → (i = .swi3 → p.swi3Vector = q.swi3Vector) →
    execWith p i s = execWith q i s) ∧
  (∀ (p : Parameters) (dd : Byte) (ea : Word) (s : State),
    execWith p (.negDirect dd) s = .next (rmwAt (negByte p.negCMode) (directStage dd s).1 (directStage dd s).2) ∧
    execWith p (.negExtended ea) s = .next (rmwAt (negByte p.negCMode) (extendedStage ea s).1 (extendedStage ea s).2)) ∧
  (∀ (p : Parameters) (ix : Indexed) (s : State),
    let u := (indexedStage ix s p.pcrBase).2
    let ea := (resolveIndexed p.pcrBase ix s).1.value
    (∀ (f : ByteTransform) (i : Instr), (f, i) ∈
        [(negByte p.negCMode, .negIndexed ix), (comByte, .comIndexed ix), (lsrByte, .lsrIndexed ix),
         (rorByte, .rorIndexed ix), (asrByte, .asrIndexed ix), (aslByte, .aslIndexed ix), (rolByte, .rolIndexed ix),
         (decByte, .decIndexed ix), (incByte, .incIndexed ix), (clrByte, .clrIndexed ix)] →
      execWith p i s = .next (rmwAt f ea u)) ∧
    execWith p (.tstIndexed ix) s = .next (testAt tstByte ea u) ∧
    execWith p (.jmpIndexed ix) s = .next (u.setPc ea) ∧
    execWith p (.cmpdIndexed ix) s = .next (compareMemory State.d (ea, u)) ∧
    execWith p (.cmpyIndexed ix) s = .next (compareMemory State.y (ea, u))) ∧
  (∀ (p : Parameters) (s : State), execWith p .swi3 s = .next (enterTrap p.swi3Vector s)) ∧
  (∀ (p : Parameters) (s t : State), p.Legal → Memory.wf s.mem p.memSize = true → stepWith p s = .next t →
    Memory.wf t.mem p.memSize = true)
end

