-- ==== Sys2Proof/Laws/Bits.lean ====
section
/-! SUPPORT. The laws of the bit-field helpers: bytes of a word, sign extension and the moved address as arithmetic. -/

namespace Sys2Proof.Machine

/-- A joined word as a number (00_scope.md R8). -/
theorem joinBytes_toNat (hi lo : Byte) : (joinBytes hi lo).toNat = hi.toNat * 256 + lo.toNat := by
  have := hi.isLt
  have := lo.isLt
  simp only [joinBytes, BitVec.toNat_ofNat]
  omega

/-- The two bytes of a word joined again. -/
theorem joinBytes_high_low (w : Word) : joinBytes (highByte w) (lowByte w) = w := by
  have := w.isLt
  apply BitVec.eq_of_toNat_eq
  simp only [joinBytes_toNat, highByte, lowByte, BitVec.toNat_ofNat]
  omega

/-- The high byte of a joined word. -/
theorem highByte_joinBytes (hi lo : Byte) : highByte (joinBytes hi lo) = hi := by
  have := hi.isLt
  have := lo.isLt
  apply BitVec.eq_of_toNat_eq
  simp only [highByte, joinBytes_toNat, BitVec.toNat_ofNat]
  omega

/-- The low byte of a joined word. -/
theorem lowByte_joinBytes (hi lo : Byte) : lowByte (joinBytes hi lo) = lo := by
  have := hi.isLt
  have := lo.isLt
  apply BitVec.eq_of_toNat_eq
  simp only [lowByte, joinBytes_toNat, BitVec.toNat_ofNat]
  omega

/-- A moved address as a number (10_state.md R29). -/
theorem advanceWord_toNat (w : Word) (n : Nat) : (advanceWord w n).toNat = (w.toNat + n) % 65536 := by
  simp only [advanceWord, BitVec.toNat_add, BitVec.toNat_ofNat]
  omega

/-- A moved address as the word of a number. -/
theorem advanceWord_eq_ofNat (a : Word) (n : Nat) : advanceWord a n = BitVec.ofNat 16 (a.toNat + n) := by
  apply BitVec.eq_of_toNat_eq
  rw [advanceWord_toNat, BitVec.toNat_ofNat]

/-- Moving an address twice. -/
theorem advanceWord_advanceWord (w : Word) (m n : Nat) : advanceWord (advanceWord w m) n = advanceWord w (m + n) := by
  apply BitVec.eq_of_toNat_eq
  simp only [advanceWord_toNat]
  omega

/-- The next address is the address moved by one. -/
theorem nextWord_eq_advanceWord (w : Word) : nextWord w = advanceWord w 1 := rfl

/-- Adding a word given as an integer, modulo 65536 (00_scope.md R9). -/
theorem add_ofInt_toNat (w : Word) (k : Int) : ((w + BitVec.ofInt 16 k).toNat : Int) = (w.toNat + k) % 65536 := by
  rw [BitVec.toNat_add, BitVec.toNat_ofInt]
  push_cast
  omega

/-- A byte sign-extended is its signed reading as a word (00_scope.md R9). -/
theorem signExtendByte_eq_ofInt (v : Byte) : signExtendByte v = BitVec.ofInt 16 v.toInt := rfl

end Sys2Proof.Machine
end

