-- ==== Sys2Proof/Laws/Decode.lean ====
section
/-! SUPPORT. The laws of the decoder and the encoder: what each field of the postbyte decodes to, and one lemma per format
that the per-instruction lemmas cite. -/

namespace Sys2Proof

open Sys2Proof.Machine

/-! ## The streams -/

/-- The bytes a stream begins with, one by one. -/
theorem beginsWith_cons {st : Nat → Byte} {b : Byte} {bs : List Byte} :
    BeginsWith st (b :: bs) ↔ st 0 = b ∧ BeginsWith (fun k => st (k + 1)) bs := by
  constructor
  · intro h
    exact ⟨h 0 (by simp), fun k hk => by simpa using h (k + 1) (by simpa using hk)⟩
  · rintro ⟨h0, h⟩ k hk
    cases k with
    | zero => simpa using h0
    | succ k => simpa using h k (by simpa using hk)

/-! ## The postbyte -/

/-- The register field. -/
theorem baseOfCode_code (r : BaseReg) : baseOfCode r.code = r := by cases r <;> rfl

/-- The five-bit form decodes to its own register and offset (30_encoding.md R87). -/
theorem decodeIndexed_offset5 (r : BaseReg) {off : Int} (h : -16 ≤ off) (h' : off ≤ 15) {st : Nat → Byte}
    (hs : st 0 = (Indexed.offset5 r off).postbyte) : decodeIndexed st = .ok (.offset5 r off) := by
  unfold decodeIndexed
  rw [hs]
  interval_cases off <;> cases r <;> rfl

/-- The fields of a postbyte with bit 7 set (30_encoding.md R87). -/
theorem mode_postbyte_fields (r : BaseReg) (indirect : Bool) (c : BitVec 4) :
    let pb : Byte := 1#1 ++ r.code ++ BitVec.ofBool indirect ++ c
    pb.getLsbD 7 = true ∧ pb.extractLsb' 5 2 = r.code ∧ pb.getLsbD 4 = indirect ∧ pb.extractLsb' 0 4 = c := by
  revert c
  cases r <;> cases indirect <;> decide

/-- A sub-mode decodes back from its code and its offset bytes (30_encoding.md R88). -/
theorem subModeOfCode_code (m : SubMode) {st : Nat → Byte} (h : BeginsWith (fun k => st (k + 1)) m.offsetBytes) :
    subModeOfCode m.code st = some m := by
  cases m with
  | offset8 oo =>
    have h0 : st 1 = oo := h 0 (by simp [SubMode.offsetBytes])
    simp [subModeOfCode, SubMode.code, h0]
  | pcr8 oo =>
    have h0 : st 1 = oo := h 0 (by simp [SubMode.offsetBytes])
    simp [subModeOfCode, SubMode.code, h0]
  | offset16 off =>
    have h0 : st 1 = highByte off := h 0 (by simp [SubMode.offsetBytes, wordBytes])
    have h1 : st 2 = lowByte off := h 1 (by simp [SubMode.offsetBytes, wordBytes])
    simp [subModeOfCode, SubMode.code, h0, h1, joinBytes_high_low]
  | pcr16 off =>
    have h0 : st 1 = highByte off := h 0 (by simp [SubMode.offsetBytes, wordBytes])
    have h1 : st 2 = lowByte off := h 1 (by simp [SubMode.offsetBytes, wordBytes])
    simp [subModeOfCode, SubMode.code, h0, h1, joinBytes_high_low]
  | _ => rfl

/-- An Indexed operand in range decodes back from its bytes. -/
theorem decodeIndexed_bytes {ix : Indexed} (hwf : ix.wf = true) {st : Nat → Byte} (h : BeginsWith st ix.bytes) :
    decodeIndexed st = .ok ix := by
  cases ix with
  | offset5 r off =>
    simp only [Indexed.wf, Bool.and_eq_true, decide_eq_true_eq] at hwf
    exact decodeIndexed_offset5 r hwf.1 hwf.2 (beginsWith_cons.mp h).1
  | mode r indirect m =>
    obtain ⟨h0, hrest⟩ := beginsWith_cons.mp h
    obtain ⟨hform, hreg, hind, hcode⟩ := mode_postbyte_fields r indirect m.code
    unfold decodeIndexed
    simp only [h0, Indexed.postbyte, hform, hreg, hind, hcode, if_true, subModeOfCode_code m hrest, baseOfCode_code]

/-! ## One lemma per format (30_encoding.md R81) -/

/-- A page-1 opcode decodes by its entry. -/
theorem decode_pageOne {st : Nat → Byte} {op : Byte} {e : Entry} {i : Instr} (h0 : st 0 = op) (hp : op ≠ pageTwoByte)
    (hl : lookupOpcode .one op = some e) (ho : decodeOperand e (fun k => st (k + 1)) = .ok i) : decode st = .ok i := by
  have hpage : opcodePage st = .one := by simp [opcodePage, h0, hp]
  have hbyte : opcodeByte st = op := by simp [opcodeByte, hpage, h0]
  simp only [decode, hpage, hbyte, hl, Page.opcodeBytes]
  simpa [Nat.add_comm] using ho

/-- A page-2 opcode decodes by its entry. -/
theorem decode_pageTwo {st : Nat → Byte} {op : Byte} {e : Entry} {i : Instr} (h0 : st 0 = pageTwoByte) (h1 : st 1 = op)
    (hl : lookupOpcode .two op = some e) (ho : decodeOperand e (fun k => st (k + 2)) = .ok i) : decode st = .ok i := by
  have hpage : opcodePage st = .two := by simp [opcodePage, h0]
  have hbyte : opcodeByte st = op := by simp [opcodeByte, hpage, h1]
  simp only [decode, hpage, hbyte, hl, Page.opcodeBytes]
  simpa [Nat.add_comm] using ho

/-- A Direct operand. -/
theorem decodeOperand_direct {mk : Byte → Instr} {dd : Byte} {st : Nat → Byte} (h : BeginsWith st [dd]) :
    decodeOperand (.direct mk) st = .ok (mk dd) := by
  simp [decodeOperand, (beginsWith_cons.mp h).1]

/-- An Extended operand. -/
theorem decodeOperand_extended {mk : Word → Instr} {w : Word} {st : Nat → Byte} (h : BeginsWith st (wordBytes w)) :
    decodeOperand (.extended mk) st = .ok (mk w) := by
  have h0 : st 0 = highByte w := h 0 (by simp [wordBytes])
  have h1 : st 1 = lowByte w := h 1 (by simp [wordBytes])
  simp [decodeOperand, h0, h1, joinBytes_high_low]

/-- An Immediate operand. -/
theorem decodeOperand_immediate {mk : Word → Instr} {w : Word} {st : Nat → Byte} (h : BeginsWith st (wordBytes w)) :
    decodeOperand (.immediate mk) st = .ok (mk w) := decodeOperand_extended (mk := mk) h

/-- An Indexed operand. -/
theorem decodeOperand_indexed {mk : Indexed → Instr} {ix : Indexed} {st : Nat → Byte} (hwf : ix.wf = true)
    (h : BeginsWith st ix.bytes) : decodeOperand (.indexed mk) st = .ok (mk ix) := by
  simp [decodeOperand, decodeIndexed_bytes hwf h, Except.map]

/-- Format P1-DIR. -/
theorem decode_p1Dir {st : Nat → Byte} {op dd : Byte} {mk : Byte → Instr} (hp : op ≠ pageTwoByte)
    (hl : lookupOpcode .one op = some (.direct mk)) (h : BeginsWith st [op, dd]) : decode st = .ok (mk dd) :=
  have h := beginsWith_cons.mp h
  decode_pageOne h.1 hp hl (decodeOperand_direct h.2)

/-- Format P1-IDX. -/
theorem decode_p1Idx {st : Nat → Byte} {op : Byte} {ix : Indexed} {mk : Indexed → Instr} (hp : op ≠ pageTwoByte)
    (hl : lookupOpcode .one op = some (.indexed mk)) (hwf : ix.wf = true) (h : BeginsWith st (op :: ix.bytes)) :
    decode st = .ok (mk ix) :=
  have h := beginsWith_cons.mp h
  decode_pageOne h.1 hp hl (decodeOperand_indexed hwf h.2)

/-- Format P1-EXT. -/
theorem decode_p1Ext {st : Nat → Byte} {op : Byte} {w : Word} {mk : Word → Instr} (hp : op ≠ pageTwoByte)
    (hl : lookupOpcode .one op = some (.extended mk)) (h : BeginsWith st (op :: wordBytes w)) : decode st = .ok (mk w) :=
  have h := beginsWith_cons.mp h
  decode_pageOne h.1 hp hl (decodeOperand_extended h.2)

/-- Formats P2-REL16 and P2-IMM16. -/
theorem decode_p2Imm {st : Nat → Byte} {op : Byte} {w : Word} {mk : Word → Instr}
    (hl : lookupOpcode .two op = some (.immediate mk)) (h : BeginsWith st (pageTwoByte :: op :: wordBytes w)) :
    decode st = .ok (mk w) :=
  have h := beginsWith_cons.mp h
  have h' := beginsWith_cons.mp h.2
  decode_pageTwo h.1 h'.1 hl (decodeOperand_immediate h'.2)

/-- Format P2-DIR. -/
theorem decode_p2Dir {st : Nat → Byte} {op dd : Byte} {mk : Byte → Instr}
    (hl : lookupOpcode .two op = some (.direct mk)) (h : BeginsWith st [pageTwoByte, op, dd]) : decode st = .ok (mk dd) :=
  have h := beginsWith_cons.mp h
  have h' := beginsWith_cons.mp h.2
  decode_pageTwo h.1 h'.1 hl (decodeOperand_direct h'.2)

/-- Format P2-IDX. -/
theorem decode_p2Idx {st : Nat → Byte} {op : Byte} {ix : Indexed} {mk : Indexed → Instr}
    (hl : lookupOpcode .two op = some (.indexed mk)) (hwf : ix.wf = true)
    (h : BeginsWith st (pageTwoByte :: op :: ix.bytes)) : decode st = .ok (mk ix) :=
  have h := beginsWith_cons.mp h
  have h' := beginsWith_cons.mp h.2
  decode_pageTwo h.1 h'.1 hl (decodeOperand_indexed hwf h'.2)

/-- Format P2-EXT. -/
theorem decode_p2Ext {st : Nat → Byte} {op : Byte} {w : Word} {mk : Word → Instr}
    (hl : lookupOpcode .two op = some (.extended mk)) (h : BeginsWith st (pageTwoByte :: op :: wordBytes w)) :
    decode st = .ok (mk w) :=
  have h := beginsWith_cons.mp h
  have h' := beginsWith_cons.mp h.2
  decode_pageTwo h.1 h'.1 hl (decodeOperand_extended h'.2)

/-- Format P2-INH. -/
theorem decode_p2Inh {st : Nat → Byte} {op : Byte} {i : Instr} (hl : lookupOpcode .two op = some (.inherent i))
    (h : BeginsWith st [pageTwoByte, op]) : decode st = .ok i :=
  have h := beginsWith_cons.mp h
  decode_pageTwo h.1 (beginsWith_cons.mp h.2).1 hl rfl

/-! ## The opcode maps and the postbyte, as the spec lists them -/

/-- The map has no entry for an opcode exactly when 42_engine.md R190 assigns it none. -/
theorem lookupOpcode_eq_none (page : Page) (op : Byte) : lookupOpcode page op = none ↔ ¬ AssignedOpcode page op.toNat := by
  have one : ∀ op : Byte, (lookupOpcode .one op).isNone = true ↔
      ¬ (op.toNat / 16 ∈ [0x0, 0x6, 0x7] ∧ op.toNat % 16 ∈ pageOneNibbles) := by decide +kernel
  have two : ∀ op : Byte, (lookupOpcode .two op).isNone = true ↔
      ¬ ((0x21 ≤ op.toNat ∧ op.toNat ≤ 0x2F) ∨ op.toNat = 0x3F ∨
        (op.toNat / 16 ∈ [0x8, 0x9, 0xA, 0xB] ∧ op.toNat % 16 ∈ [0x3, 0xC])) := by decide +kernel
  rw [← Option.isNone_iff_eq_none]
  cases page
  · exact one op
  · exact two op

/-- The entry wants an Indexed operand. -/
def Entry.isIndexed : Entry → Bool
  | .indexed _ => true
  | .direct _ | .extended _ | .immediate _ | .inherent _ => false

/-- The map gives an opcode an Indexed format exactly when 42_engine.md R190 does. -/
theorem lookupOpcode_isIndexed (page : Page) (op : Byte) :
    (lookupOpcode page op).any Entry.isIndexed = true ↔ IndexedOpcode page op.toNat := by
  have one : ∀ op : Byte, (lookupOpcode .one op).any Entry.isIndexed = true ↔
      (op.toNat / 16 = 6 ∧ op.toNat % 16 ∈ pageOneNibbles) := by decide +kernel
  have two : ∀ op : Byte, (lookupOpcode .two op).any Entry.isIndexed = true ↔
      (op.toNat = 0xA3 ∨ op.toNat = 0xAC) := by decide +kernel
  cases page
  · exact one op
  · exact two op

/-- A postbyte has no sub-mode exactly when it is one of the 32 of 30_encoding.md R92. -/
theorem subModeOfCode_eq_none (pb : Byte) (st : Nat → Byte) :
    (pb.getLsbD 7 = true ∧ subModeOfCode (pb.extractLsb' 0 4) st = none) ↔ InvalidPostbyte pb.toNat := by
  have fields : ∀ pb : Byte, (pb.getLsbD 7 = true ∧ (pb.extractLsb' 0 4).toNat ∈ [0x7, 0xA, 0xE, 0xF]) ↔
      (128 ≤ pb.toNat ∧ pb.toNat % 16 ∈ [0x7, 0xA, 0xE, 0xF]) := by decide +kernel
  have codes : ∀ c : BitVec 4, subModeOfCode c st = none ↔ c.toNat ∈ [0x7, 0xA, 0xE, 0xF] := by
    intro c
    have hc := c.isLt
    unfold subModeOfCode
    generalize c.toNat = n at hc
    interval_cases n <;> simp
  rw [InvalidPostbyte, ← fields, codes]

/-! ## What a stream that decodes looks like -/

/-- An opcode with an entry stands in its map. -/
theorem mem_opcodeMap_of_lookup {page : Page} {op : Byte} {e : Entry} (h : lookupOpcode page op = some e) :
    ⟨op, e⟩ ∈ opcodeMap page := by
  rw [lookupOpcode, Option.map_eq_some_iff] at h
  obtain ⟨row, hr, rfl⟩ := h
  have hop := List.find?_some hr
  simp only [beq_iff_eq] at hop
  subst hop
  exact List.mem_of_find?_eq_some hr

/-- A sub-mode read from a stream: its code, and its offset bytes after the postbyte. -/
theorem subModeOfCode_eq_some {c : BitVec 4} {st : Nat → Byte} {m : SubMode} (h : subModeOfCode c st = some m) :
    m.code = c ∧ BeginsWith (fun k => st (k + 1)) m.offsetBytes := by
  have hc := c.isLt
  unfold subModeOfCode at h
  have hcode : ∀ n : Nat, c.toNat = n → BitVec.ofNat 4 n = c := fun n hn => by rw [← hn]; simp
  generalize hn : c.toNat = n at h hc
  replace hcode := hcode n hn
  interval_cases n <;> simp at h <;> subst h <;> refine ⟨hcode, ?_⟩ <;> intro k hk <;>
    first
    | exact absurd hk (Nat.not_lt_zero k)
    | (have hk : k < 1 := hk; interval_cases k; rfl)
    | (have hk : k < 2 := hk
       interval_cases k <;> simp [SubMode.offsetBytes, wordBytes, highByte_joinBytes, lowByte_joinBytes])

/-- An Indexed operand that was read from a stream is in range, and the stream begins with its bytes. -/
theorem decodeIndexed_eq_ok {st : Nat → Byte} {ix : Indexed} (h : decodeIndexed st = .ok ix) :
    ix.wf = true ∧ BeginsWith st ix.bytes := by
  have modes : ∀ pb : Byte, pb.getLsbD 7 = true →
      (1#1 ++ (baseOfCode (pb.extractLsb' 5 2)).code ++ BitVec.ofBool (pb.getLsbD 4) ++ pb.extractLsb' 0 4 : BitVec 8) =
        pb := by decide +kernel
  have fives : ∀ pb : Byte, pb.getLsbD 7 = false →
      (0#1 ++ (baseOfCode (pb.extractLsb' 5 2)).code ++ BitVec.ofInt 5 (pb.extractLsb' 0 5).toInt : BitVec 8) = pb ∧
        -16 ≤ (pb.extractLsb' 0 5).toInt ∧ (pb.extractLsb' 0 5).toInt ≤ 15 := by decide +kernel
  unfold decodeIndexed at h
  by_cases h7 : (st 0).getLsbD 7 = true
  · rw [if_pos h7] at h
    split at h
    · rename_i m hm
      cases h
      obtain ⟨hcode, hoff⟩ := subModeOfCode_eq_some hm
      refine ⟨rfl, beginsWith_cons.mpr ⟨?_, hoff⟩⟩
      simp only [Indexed.postbyte, hcode, modes _ h7]
    · cases h
  · rw [if_neg h7] at h
    cases h
    obtain ⟨h1, h2, h3⟩ := fives (st 0) (by simpa using h7)
    refine ⟨by simp only [Indexed.wf, h2, h3, decide_true, Bool.and_self], beginsWith_cons.mpr ⟨h1.symm, ?_⟩⟩
    intro k hk
    simp at hk

/-- The cases of an operand that was read from a stream. -/
theorem decodeOperand_eq_ok {e : Entry} {st : Nat → Byte} {i : Instr} (h : decodeOperand e st = .ok i) :
    (∃ mk, e = .direct mk ∧ i = mk (st 0)) ∨
    (∃ mk ix, e = .indexed mk ∧ i = mk ix ∧ ix.wf = true ∧ BeginsWith st ix.bytes) ∨
    (∃ mk w, (e = .extended mk ∨ e = .immediate mk) ∧ i = mk w ∧ BeginsWith st (wordBytes w)) ∨ e = .inherent i := by
  have hw : BeginsWith st (wordBytes (joinBytes (st 0) (st 1))) := by
    intro k hk
    have hk : k < 2 := hk
    interval_cases k <;> simp [wordBytes, highByte_joinBytes, lowByte_joinBytes]
  cases e with
  | direct mk => cases h; exact .inl ⟨_, rfl, rfl⟩
  | indexed mk =>
    simp only [decodeOperand] at h
    cases hx : decodeIndexed st with
    | error r => rw [hx] at h; cases h
    | ok ix => rw [hx] at h; cases h; exact .inr (.inl ⟨_, ix, rfl, rfl, decodeIndexed_eq_ok hx⟩)
  | extended mk => cases h; exact .inr (.inr (.inl ⟨_, _, .inl rfl, rfl, hw⟩))
  | immediate mk => cases h; exact .inr (.inr (.inl ⟨_, _, .inr rfl, rfl, hw⟩))
  | inherent j => cases h; exact .inr (.inr (.inr rfl))

/-! ## Any value of OPCODE_MAP -/

/-- With opcodes that differ, the lookup finds every row. -/
theorem find_opcode_of_nodup {rows : List OpcodeRow} (h : (rows.map OpcodeRow.opcode).Nodup) {row : OpcodeRow}
    (hm : row ∈ rows) : rows.find? (fun r => r.opcode == row.opcode) = some row := by
  induction rows with
  | nil => cases hm
  | cons a rows ih =>
    rw [List.map_cons, List.nodup_cons] at h
    rcases List.mem_cons.mp hm with rfl | hm
    · simp
    · have : (a.opcode == row.opcode) = false := by
        simpa using fun he : a.opcode = row.opcode => h.1 (he ▸ List.mem_map_of_mem hm)
      rw [List.find?_cons, this]
      exact ih h.2 hm

/-- A legal map gives each of its opcodes the entry of its row (00_scope.md R6). -/
theorem lookupOpcode_of_legal {p : Machine.Parameters} (hp : p.Legal) {page : Page} {row : OpcodeRow}
    (h : row ∈ p.opcodeMap page) : lookupOpcode page row.opcode p.opcodeMap = some row.entry := by
  rw [lookupOpcode, find_opcode_of_nodup (hp.distinct page) h]
  rfl

/-! ## Lengths -/

/-- The bytes of an Indexed operand are as many as the resolver consumes. -/
theorem Indexed.bytes_length (ix : Indexed) : ix.bytes.length = indexedBytes ix := by
  rcases ix with _ | ⟨_, _, m⟩
  · rfl
  · cases m <;> rfl

/-- The page of an instruction's opcode: that of the first byte of its encoding (30_encoding.md R82). -/
def Instr.page (i : Instr) : Page := opcodePage (streamOf (encode i))

/-- An encoding is longer than nothing. -/
theorem encode_length_pos (i : Instr) : 0 < (encode i).length := by
  cases i <;> exact Nat.succ_pos _

/-- A stream that begins with an instruction's bytes has that instruction's page. -/
theorem opcodePage_of_beginsWith {st : Nat → Byte} {i : Instr} (h : BeginsWith st (encode i)) : opcodePage st = i.page := by
  rw [Instr.page, opcodePage, opcodePage, h 0 (encode_length_pos i), streamOf]

/-- The opcode bytes are part of the encoding. -/
theorem opcodeBytes_le_length (i : Instr) : i.page.opcodeBytes ≤ (encode i).length := by
  cases i <;> exact Nat.le_add_left _ _

end Sys2Proof
end

