-- ==== Sys2Proof/Laws/Flags.lean ====
section
/-! SUPPORT. The laws of the condition-code setters and of the adder. -/

namespace Sys2Proof.Machine

/-- A setter writes its own bit and disturbs no other (10_state.md R32). -/
@[simp] theorem getFlag_setFlag (f g : Flag) (v : Bool) (cc : Byte) :
    getFlag g (setFlag f v cc) = if g = f then v else getFlag g cc := by
  cases v <;> cases f <;> cases g <;> simp [getFlag, setFlag, Flag.mask, Flag.bit]

/-- What a raised flag and the flags beside it read as (41_alu_primitives.md R155). -/
@[simp] theorem getFlag_raiseFlag (f g : Flag) (enabled condition : Bool) (cc : Byte) :
    getFlag g (raiseFlag f enabled condition cc) = if g = f then getFlag g cc || (enabled && condition) else getFlag g cc := by
  unfold raiseFlag
  cases h : enabled && condition
  · simp
  · by_cases hg : g = f <;> simp [hg]

/-- N and Z from a byte result, and the other flags (41_alu_primitives.md R152). -/
@[simp] theorem getFlag_setNZ8 (g : Flag) (r cc : Byte) :
    getFlag g (setNZ8 r cc) = if g = .N then isNegative8 r else if g = .Z then isZero8 r else getFlag g cc := by
  simp [setNZ8]

/-- N and Z from a word result, and the other flags (41_alu_primitives.md R152). -/
@[simp] theorem getFlag_setNZ16 (g : Flag) (r : Word) (cc : Byte) :
    getFlag g (setNZ16 r cc) = if g = .N then isNegative16 r else if g = .Z then isZero16 r else getFlag g cc := by
  simp [setNZ16]

/-- The byte adder's sum. -/
@[simp] theorem binaryAdd8_value (a b : Byte) (half carry overflow : Bool) (cc : Byte) :
    (binaryAdd8 a b half carry overflow cc).1 = a + b := by
  apply BitVec.eq_of_toNat_eq
  simp [binaryAdd8, BitVec.toNat_add]

/-- The word adder's sum. -/
@[simp] theorem binaryAdd16_value (a b : Word) (half carry overflow : Bool) (cc : Byte) :
    (binaryAdd16 a b half carry overflow cc).1 = a + b := by
  apply BitVec.eq_of_toNat_eq
  simp [binaryAdd16, BitVec.toNat_add]

/-- With nothing enabled the byte adder writes no flag (41_alu_primitives.md R153). -/
@[simp] theorem binaryAdd8_no_flags (a b cc : Byte) : (binaryAdd8 a b false false false cc).2 = cc := by
  simp [binaryAdd8, raiseFlag]

/-- The flags after the word adder with carry and overflow enabled, as the compares use it. -/
theorem binaryAdd16_flags (a b : Word) (cc : Byte) (g : Flag) :
    getFlag g (binaryAdd16 a b false true true cc).2 =
      if g = .C ∨ g = .V then getFlag g cc || decide (a.toNat + b.toNat > 0xFFFF) else getFlag g cc := by
  cases g <;> simp [binaryAdd16]

/-- The byte negation as arithmetic (41_alu_primitives.md R150). -/
theorem twosComplement8_eq_neg (v : Byte) : twosComplement8 v = -v := (BitVec.neg_eq_not_add v).symm

/-- The word negation as arithmetic (41_alu_primitives.md R150). -/
theorem twosComplement16_eq_neg (v : Word) : twosComplement16 v = -v := (BitVec.neg_eq_not_add v).symm

end Sys2Proof.Machine
end

