-- ==== Sys2Proof/Laws/State.lean ====
section
/-! SUPPORT. One lemma per field per update of State, true by unfolding, so that no later proof unfolds a record update. -/

namespace Sys2Proof.Machine

variable (st : State)

/-! ### setPc -/

@[simp] theorem State.setPc_a (v : Word) : (st.setPc v).a = st.a := rfl
@[simp] theorem State.setPc_b (v : Word) : (st.setPc v).b = st.b := rfl
@[simp] theorem State.setPc_dp (v : Word) : (st.setPc v).dp = st.dp := rfl
@[simp] theorem State.setPc_cc (v : Word) : (st.setPc v).cc = st.cc := rfl
@[simp] theorem State.setPc_pc (v : Word) : (st.setPc v).pc = v := rfl
@[simp] theorem State.setPc_x (v : Word) : (st.setPc v).x = st.x := rfl
@[simp] theorem State.setPc_y (v : Word) : (st.setPc v).y = st.y := rfl
@[simp] theorem State.setPc_u (v : Word) : (st.setPc v).u = st.u := rfl
@[simp] theorem State.setPc_s (v : Word) : (st.setPc v).s = st.s := rfl
@[simp] theorem State.setPc_mem (v : Word) : (st.setPc v).mem = st.mem := rfl

/-! ### setCc -/

@[simp] theorem State.setCc_a (v : Byte) : (st.setCc v).a = st.a := rfl
@[simp] theorem State.setCc_b (v : Byte) : (st.setCc v).b = st.b := rfl
@[simp] theorem State.setCc_dp (v : Byte) : (st.setCc v).dp = st.dp := rfl
@[simp] theorem State.setCc_cc (v : Byte) : (st.setCc v).cc = v := rfl
@[simp] theorem State.setCc_pc (v : Byte) : (st.setCc v).pc = st.pc := rfl
@[simp] theorem State.setCc_x (v : Byte) : (st.setCc v).x = st.x := rfl
@[simp] theorem State.setCc_y (v : Byte) : (st.setCc v).y = st.y := rfl
@[simp] theorem State.setCc_u (v : Byte) : (st.setCc v).u = st.u := rfl
@[simp] theorem State.setCc_s (v : Byte) : (st.setCc v).s = st.s := rfl
@[simp] theorem State.setCc_mem (v : Byte) : (st.setCc v).mem = st.mem := rfl

/-! ### advance -/

@[simp] theorem State.advance_a (n : Nat) : (st.advance n).a = st.a := rfl
@[simp] theorem State.advance_b (n : Nat) : (st.advance n).b = st.b := rfl
@[simp] theorem State.advance_dp (n : Nat) : (st.advance n).dp = st.dp := rfl
@[simp] theorem State.advance_cc (n : Nat) : (st.advance n).cc = st.cc := rfl
@[simp] theorem State.advance_pc (n : Nat) : (st.advance n).pc = advanceWord st.pc n := rfl
@[simp] theorem State.advance_x (n : Nat) : (st.advance n).x = st.x := rfl
@[simp] theorem State.advance_y (n : Nat) : (st.advance n).y = st.y := rfl
@[simp] theorem State.advance_u (n : Nat) : (st.advance n).u = st.u := rfl
@[simp] theorem State.advance_s (n : Nat) : (st.advance n).s = st.s := rfl
@[simp] theorem State.advance_mem (n : Nat) : (st.advance n).mem = st.mem := rfl

/-! ### writeByte -/

@[simp] theorem State.writeByte_a (a : Word) (v : Byte) : (st.writeByte a v).a = st.a := rfl
@[simp] theorem State.writeByte_b (a : Word) (v : Byte) : (st.writeByte a v).b = st.b := rfl
@[simp] theorem State.writeByte_dp (a : Word) (v : Byte) : (st.writeByte a v).dp = st.dp := rfl
@[simp] theorem State.writeByte_cc (a : Word) (v : Byte) : (st.writeByte a v).cc = st.cc := rfl
@[simp] theorem State.writeByte_pc (a : Word) (v : Byte) : (st.writeByte a v).pc = st.pc := rfl
@[simp] theorem State.writeByte_x (a : Word) (v : Byte) : (st.writeByte a v).x = st.x := rfl
@[simp] theorem State.writeByte_y (a : Word) (v : Byte) : (st.writeByte a v).y = st.y := rfl
@[simp] theorem State.writeByte_u (a : Word) (v : Byte) : (st.writeByte a v).u = st.u := rfl
@[simp] theorem State.writeByte_s (a : Word) (v : Byte) : (st.writeByte a v).s = st.s := rfl
@[simp] theorem State.writeByte_mem (a : Word) (v : Byte) : (st.writeByte a v).mem = Memory.write st.mem a.toNat v := rfl

/-! ### pushBytes -/

@[simp] theorem State.pushBytes_a (bs : List Byte) : (st.pushBytes bs).a = st.a := rfl
@[simp] theorem State.pushBytes_b (bs : List Byte) : (st.pushBytes bs).b = st.b := rfl
@[simp] theorem State.pushBytes_dp (bs : List Byte) : (st.pushBytes bs).dp = st.dp := rfl
@[simp] theorem State.pushBytes_cc (bs : List Byte) : (st.pushBytes bs).cc = st.cc := rfl
@[simp] theorem State.pushBytes_pc (bs : List Byte) : (st.pushBytes bs).pc = st.pc := rfl
@[simp] theorem State.pushBytes_x (bs : List Byte) : (st.pushBytes bs).x = st.x := rfl
@[simp] theorem State.pushBytes_y (bs : List Byte) : (st.pushBytes bs).y = st.y := rfl
@[simp] theorem State.pushBytes_u (bs : List Byte) : (st.pushBytes bs).u = st.u := rfl
@[simp] theorem State.pushBytes_s (bs : List Byte) : (st.pushBytes bs).s = pushPointer st.s bs := rfl
@[simp] theorem State.pushBytes_mem (bs : List Byte) : (st.pushBytes bs).mem = pushMemory st.mem st.s bs := rfl

/-! ### setBase: the fields that are no base register -/

@[simp] theorem State.setBase_a (r : BaseReg) (v : Word) : (st.setBase r v).a = st.a := by cases r <;> rfl
@[simp] theorem State.setBase_b (r : BaseReg) (v : Word) : (st.setBase r v).b = st.b := by cases r <;> rfl
@[simp] theorem State.setBase_dp (r : BaseReg) (v : Word) : (st.setBase r v).dp = st.dp := by cases r <;> rfl
@[simp] theorem State.setBase_cc (r : BaseReg) (v : Word) : (st.setBase r v).cc = st.cc := by cases r <;> rfl
@[simp] theorem State.setBase_pc (r : BaseReg) (v : Word) : (st.setBase r v).pc = st.pc := by cases r <;> rfl
@[simp] theorem State.setBase_mem (r : BaseReg) (v : Word) : (st.setBase r v).mem = st.mem := by cases r <;> rfl

/-- A base register reads back what was written to it. -/
@[simp] theorem State.base_setBase_same (r : BaseReg) (v : Word) : (st.setBase r v).base r = v := by
  cases r <;> rfl

/-- Writing one base register leaves the others alone. -/
theorem State.base_setBase_other {r q : BaseReg} (h : q ≠ r) (v : Word) : (st.setBase r v).base q = st.base q := by
  cases r <;> cases q <;> first | rfl | exact absurd rfl h

/-! ### Reads that an update does not disturb -/

@[simp] theorem State.readByte_setPc (v : Word) (i : Word) : (st.setPc v).readByte i = st.readByte i := rfl
@[simp] theorem State.readWord_setPc (v : Word) (i : Word) : (st.setPc v).readWord i = st.readWord i := rfl
@[simp] theorem State.base_setPc (v : Word) (r : BaseReg) : (st.setPc v).base r = st.base r := by cases r <;> rfl
@[simp] theorem State.d_setPc (v : Word) : (st.setPc v).d = st.d := rfl
@[simp] theorem State.flag_setPc (v : Word) (f : Flag) : (st.setPc v).flag f = st.flag f := rfl
@[simp] theorem State.readByte_setCc (v : Byte) (i : Word) : (st.setCc v).readByte i = st.readByte i := rfl
@[simp] theorem State.readWord_setCc (v : Byte) (i : Word) : (st.setCc v).readWord i = st.readWord i := rfl
@[simp] theorem State.base_setCc (v : Byte) (r : BaseReg) : (st.setCc v).base r = st.base r := by cases r <;> rfl
@[simp] theorem State.d_setCc (v : Byte) : (st.setCc v).d = st.d := rfl
@[simp] theorem State.readByte_advance (n : Nat) (i : Word) : (st.advance n).readByte i = st.readByte i := rfl
@[simp] theorem State.readWord_advance (n : Nat) (i : Word) : (st.advance n).readWord i = st.readWord i := rfl
@[simp] theorem State.base_advance (n : Nat) (r : BaseReg) : (st.advance n).base r = st.base r := by cases r <;> rfl
@[simp] theorem State.d_advance (n : Nat) : (st.advance n).d = st.d := rfl
@[simp] theorem State.flag_advance (n : Nat) (f : Flag) : (st.advance n).flag f = st.flag f := rfl
@[simp] theorem State.flag_setCc (v : Byte) (f : Flag) : (st.setCc v).flag f = getFlag f v := rfl
@[simp] theorem State.flag_writeByte (i : Word) (v : Byte) (f : Flag) : (st.writeByte i v).flag f = st.flag f := rfl
@[simp] theorem State.base_writeByte (i : Word) (v : Byte) (r : BaseReg) : (st.writeByte i v).base r = st.base r := by
  cases r <;> rfl
@[simp] theorem State.d_writeByte (i : Word) (v : Byte) : (st.writeByte i v).d = st.d := rfl
@[simp] theorem State.readByte_setBase (r : BaseReg) (v : Word) (i : Word) :
    (st.setBase r v).readByte i = st.readByte i := by cases r <;> rfl
@[simp] theorem State.readWord_setBase (r : BaseReg) (v : Word) (i : Word) :
    (st.setBase r v).readWord i = st.readWord i := by cases r <;> rfl
@[simp] theorem State.flag_setBase (r : BaseReg) (v : Word) (f : Flag) : (st.setBase r v).flag f = st.flag f := by
  cases r <;> rfl
@[simp] theorem State.d_setBase (r : BaseReg) (v : Word) : (st.setBase r v).d = st.d := by cases r <;> rfl

/-! ### setD, the host's write of the D view -/

@[simp] theorem State.setD_a (v : Word) : (st.setD v).a = highByte v := rfl
@[simp] theorem State.setD_b (v : Word) : (st.setD v).b = lowByte v := rfl
@[simp] theorem State.setD_dp (v : Word) : (st.setD v).dp = st.dp := rfl
@[simp] theorem State.setD_cc (v : Word) : (st.setD v).cc = st.cc := rfl
@[simp] theorem State.setD_pc (v : Word) : (st.setD v).pc = st.pc := rfl
@[simp] theorem State.setD_x (v : Word) : (st.setD v).x = st.x := rfl
@[simp] theorem State.setD_y (v : Word) : (st.setD v).y = st.y := rfl
@[simp] theorem State.setD_u (v : Word) : (st.setD v).u = st.u := rfl
@[simp] theorem State.setD_s (v : Word) : (st.setD v).s = st.s := rfl
@[simp] theorem State.setD_mem (v : Word) : (st.setD v).mem = st.mem := rfl

end Sys2Proof.Machine
end

