-- ==== Sys2Proof/Laws/Memory.lean ====
section
/-! SUPPORT. The laws of the memory image: read after write, write leaves the rest alone, and the canonical form: every
operation keeps it, and it makes equal memories equal data. -/

namespace Sys2Proof.Machine.Memory

/-- The cells other than those at `i` read as before, and `i` reads as unlisted. -/
theorem read_without (m : Memory) (i j : Nat) :
    read (without m i) j = if j = i then fill else read m j := by
  induction m with
  | nil => simp [without, read]
  | cons c m ih =>
    unfold without at ih ⊢
    by_cases hc : c.1 = i
    · have : (c.1 != i) = false := by simp [hc]
      rw [List.filter_cons_of_neg (by simp [hc]), ih]
      by_cases hj : j = i
      · simp [hj]
      · have : c.1 ≠ j := fun h => hj (h.symm.trans hc)
        simp [hj, read, this]
    · rw [List.filter_cons_of_pos (by simp [hc])]
      simp only [read, ih]
      by_cases hj : j = i
      · have : c.1 ≠ j := fun h => hc (h.trans hj)
        simp [hj, hc]
      · simp [hj]

/-- No cell of `without m i` is at `i`. -/
theorem not_at_without (m : Memory) (i : Nat) : ∀ c ∈ without m i, c.1 ≠ i := by
  intro c hc
  simpa using (List.mem_filter.mp hc).2

/-- A placed cell is found, and the others read as before. -/
theorem read_place (m : Memory) (i : Nat) (v : Byte) (j : Nat) (h : ∀ c ∈ m, c.1 ≠ i) :
    read (place m i v) j = if j = i then v else read m j := by
  induction m with
  | nil =>
    by_cases hj : j = i
    · simp [place, read, hj]
    · simp [place, read, hj, Ne.symm hj]
  | cons c m ih =>
    have hc : c.1 ≠ i := h c (by simp)
    have ih := ih (fun d hd => h d (by simp [hd]))
    unfold place
    by_cases hlt : i < c.1
    · by_cases hj : j = i
      · simp [hlt, read, hj]
      · simp [hlt, read, hj, Ne.symm hj]
    · by_cases hj : j = i
      · subst hj; simp [hlt, read, hc, ih]
      · simp [hlt, read, ih, hj]

/-- What a byte reads as after a write (20_memory.md R54). -/
theorem read_write (m : Memory) (i : Nat) (v : Byte) (j : Nat) :
    read (write m i v) j = if j = i then v else read m j := by
  unfold write
  by_cases hv : v = fill
  · rw [if_pos hv, read_without, hv]
  · rw [if_neg hv, read_place _ _ _ _ (not_at_without m i), read_without]
    by_cases hj : j = i <;> simp [hj]

/-- The byte written reads back. -/
theorem read_write_same (m : Memory) (i : Nat) (v : Byte) : read (write m i v) i = v := by
  rw [read_write, if_pos rfl]

/-- Every other byte is unchanged. -/
theorem read_write_other {i j : Nat} (m : Memory) (v : Byte) (h : j ≠ i) : read (write m i v) j = read m j := by
  rw [read_write, if_neg h]

/-! ## The canonical form -/

/-- The canonical form, as a property of the list: indexes strictly rising, and every cell inside the image and not equal
to the fill byte. -/
theorem wf_iff (m : Memory) (size : Nat) :
    wf m size = true ↔ m.Pairwise (fun c d => c.1 < d.1) ∧ ∀ c ∈ m, c.1 < size ∧ c.2 ≠ fill := by
  have hr : ∀ m : Memory, rising m = true ↔ m.Pairwise (fun c d => c.1 < d.1) := by
    intro m
    induction m with
    | nil => simp [rising]
    | cons c m ih =>
      cases m with
      | nil => simp [rising]
      | cons d m =>
        simp only [rising, Bool.and_eq_true, decide_eq_true_eq, ih, List.pairwise_cons]
        constructor
        · rintro ⟨hcd, hd, hm⟩
          refine ⟨?_, hd, hm⟩
          intro e he
          rcases List.mem_cons.mp he with rfl | he
          · exact hcd
          · exact hcd.trans (hd e he)
        · rintro ⟨hc, hd, hm⟩
          exact ⟨hc d (by simp), hd, hm⟩
  simp [wf, hr]

/-- Where a placed cell's members come from. -/
theorem mem_place {m : Memory} {i : Nat} {v : Byte} {c : Host.Cell} (h : c ∈ place m i v) : c = (i, v) ∨ c ∈ m := by
  induction m with
  | nil => simpa [place] using h
  | cons d m ih =>
    unfold place at h
    split at h
    · simpa using h
    · rcases List.mem_cons.mp h with rfl | h
      · exact .inr (by simp)
      · rcases ih h with h | h
        · exact .inl h
        · exact .inr (by simp [h])

/-- Placing a cell at a new index keeps the indexes strictly rising. -/
theorem place_pairwise {m : Memory} (i : Nat) (v : Byte) (h : m.Pairwise (fun c d => c.1 < d.1))
    (hi : ∀ c ∈ m, c.1 ≠ i) : (place m i v).Pairwise (fun c d => c.1 < d.1) := by
  induction m with
  | nil => simp [place]
  | cons c m ih =>
    rw [List.pairwise_cons] at h
    unfold place
    split
    · rename_i hlt
      refine List.pairwise_cons.mpr ⟨?_, List.pairwise_cons.mpr h⟩
      intro d hd
      rcases List.mem_cons.mp hd with rfl | hd
      · exact hlt
      · exact hlt.trans (h.1 d hd)
    · rename_i hlt
      have hc : c.1 < i := lt_of_le_of_ne (Nat.le_of_not_lt hlt) (hi c (by simp))
      refine List.pairwise_cons.mpr ⟨?_, ih h.2 (fun d hd => hi d (by simp [hd]))⟩
      intro d hd
      rcases mem_place hd with rfl | hd
      · exact hc
      · exact h.1 d hd

/-- A write inside the image keeps the canonical form. -/
theorem write_keeps_wf {m : Memory} {i size : Nat} (v : Byte) (hi : i < size) (h : wf m size = true) :
    wf (write m i v) size = true := by
  rw [wf_iff] at h ⊢
  have hw : (without m i).Pairwise (fun c d => c.1 < d.1) := h.1.filter _
  have hm : ∀ c ∈ without m i, c.1 < size ∧ c.2 ≠ fill := fun c hc => h.2 c (List.mem_filter.mp hc).1
  unfold write
  split
  · exact ⟨hw, hm⟩
  · rename_i hv
    refine ⟨place_pairwise i v hw (not_at_without m i), fun c hc => ?_⟩
    rcases mem_place hc with rfl | hc
    · exact ⟨hi, hv⟩
    · exact hm c hc

/-- Every 16-bit address is inside the image (20_memory.md R71). -/
theorem word_lt_memSize (a : Word) : a.toNat < memSize := by
  have := a.isLt
  unfold memSize
  omega

/-- A write at a 16-bit address keeps the canonical form of every image that holds those addresses. -/
theorem write_word_keeps_wf {m : Memory} {size : Nat} (hs : 65536 ≤ size) (a : Word) (v : Byte)
    (h : wf m size = true) : wf (write m a.toNat v) size = true :=
  write_keeps_wf v (Nat.lt_of_lt_of_le a.isLt hs) h

/-- An index below every listed one reads as unlisted. -/
theorem read_below {m : Memory} {i : Nat} (h : ∀ c ∈ m, i < c.1) : read m i = fill := by
  induction m with
  | nil => rfl
  | cons c m ih =>
    have hc : c.1 ≠ i := (h c (by simp)).ne'
    simp [read, hc, ih (fun d hd => h d (by simp [hd]))]

end Sys2Proof.Machine.Memory
end

