-- ==== Sys2Proof/Laws/Operands.lean ====
section
/-! SUPPORT. The laws of the address calculator: what a resolver and an operand stage leave unchanged, and what they
write. -/

namespace Sys2Proof.Machine

/-! ## The write-back (40_addressing.md R130) -/

@[simp] theorem writeBack_a (r : BaseReg) (indirect : Bool) (m : SubMode) (s : State) :
    (writeBack r indirect m s).a = s.a := by
  cases indirect <;> cases m <;> simp [writeBack, subModeWriteBack]

@[simp] theorem writeBack_b (r : BaseReg) (indirect : Bool) (m : SubMode) (s : State) :
    (writeBack r indirect m s).b = s.b := by
  cases indirect <;> cases m <;> simp [writeBack, subModeWriteBack]

@[simp] theorem writeBack_dp (r : BaseReg) (indirect : Bool) (m : SubMode) (s : State) :
    (writeBack r indirect m s).dp = s.dp := by
  cases indirect <;> cases m <;> simp [writeBack, subModeWriteBack]

@[simp] theorem writeBack_cc (r : BaseReg) (indirect : Bool) (m : SubMode) (s : State) :
    (writeBack r indirect m s).cc = s.cc := by
  cases indirect <;> cases m <;> simp [writeBack, subModeWriteBack]

@[simp] theorem writeBack_pc (r : BaseReg) (indirect : Bool) (m : SubMode) (s : State) :
    (writeBack r indirect m s).pc = s.pc := by
  cases indirect <;> cases m <;> simp [writeBack, subModeWriteBack]

@[simp] theorem writeBack_mem (r : BaseReg) (indirect : Bool) (m : SubMode) (s : State) :
    (writeBack r indirect m s).mem = s.mem := by
  cases indirect <;> cases m <;> simp [writeBack, subModeWriteBack]

/-- The write-back touches no register but the selected one. -/
theorem writeBack_base_other {r q : BaseReg} (h : q ≠ r) (indirect : Bool) (m : SubMode) (s : State) :
    (writeBack r indirect m s).base q = s.base q := by
  cases indirect <;> cases m <;> simp [writeBack, subModeWriteBack, State.base_setBase_other _ h]

/-- With the indirect flag set nothing is written back (40_addressing.md R131). -/
@[simp] theorem writeBack_indirect (r : BaseReg) (m : SubMode) (s : State) : writeBack r true m s = s := rfl

/-- A sub-mode that is no auto mode writes nothing back. -/
theorem writeBack_of_not_auto {m : SubMode} (h : m ∉ [SubMode.postInc1, .postInc2, .preDec1, .preDec2])
    (r : BaseReg) (indirect : Bool) (s : State) : writeBack r indirect m s = s := by
  cases indirect <;> cases m <;> simp_all [writeBack, subModeWriteBack]

/-! ## The operand stages -/

/-- What an operand stage leaves unchanged: it writes PC and a base register, and nothing else (40_addressing.md R110,
R130). -/
structure StageOf (s t : State) : Prop where
  a : t.a = s.a
  b : t.b = s.b
  dp : t.dp = s.dp
  cc : t.cc = s.cc
  mem : t.mem = s.mem

theorem directStage_stage (dd : Byte) (s : State) : StageOf s (directStage dd s).2 := ⟨rfl, rfl, rfl, rfl, rfl⟩

theorem immediateStage_stage (imm : Word) (s : State) : StageOf s (immediateStage imm s).2 := ⟨rfl, rfl, rfl, rfl, rfl⟩

theorem extendedStage_stage (ea : Word) (s : State) : StageOf s (extendedStage ea s).2 := ⟨rfl, rfl, rfl, rfl, rfl⟩

theorem indexedStage_stage (ix : Indexed) (s : State) {base : PcrBase} : StageOf s (indexedStage ix s base).2 := by
  cases ix <;> exact ⟨by simp [indexedStage, resolveIndexed], by simp [indexedStage, resolveIndexed],
    by simp [indexedStage, resolveIndexed], by simp [indexedStage, resolveIndexed], by simp [indexedStage, resolveIndexed]⟩

/-- PC after the Indexed operand stage. -/
theorem indexedStage_pc (ix : Indexed) (s : State) {base : PcrBase} :
    (indexedStage ix s base).2.pc = advanceWord s.pc (indexedBytes ix) := by
  cases ix <;> simp [indexedStage, resolveIndexed, indexedBytes]

/-- A base register that the operand does not auto-modify is unchanged (10_state.md R24, R25). -/
theorem indexedStage_base {ix : Indexed} {q : BaseReg}
    (h : ∀ m, ix = .mode q false m → m ∉ [SubMode.postInc1, .postInc2, .preDec1, .preDec2]) (s : State)
    {pcr : PcrBase} : (indexedStage ix s pcr).2.base q = s.base q := by
  cases ix with
  | offset5 r off => simp [indexedStage, resolveIndexed]
  | mode r indirect m =>
    simp only [indexedStage, resolveIndexed, State.base_advance]
    by_cases hr : q = r
    · subst hr
      cases indirect with
      | true => rfl
      | false => rw [writeBack_of_not_auto (h m rfl)]
    · exact writeBack_base_other hr indirect m s

/-- PCR_BASE matters to a PC-relative operand only (40_addressing.md R126, R127). -/
theorem indexedStage_congr {ix : Indexed} {b c : PcrBase}
    (h : (∃ r indirect m, ix = .mode r indirect m ∧ ((∃ oo, m = SubMode.pcr8 oo) ∨ ∃ off, m = SubMode.pcr16 off)) →
      b = c) (s : State) : indexedStage ix s b = indexedStage ix s c := by
  cases ix with
  | offset5 => rfl
  | mode r indirect m =>
    cases m with
    | pcr8 oo => rw [h ⟨r, indirect, _, rfl, .inl ⟨oo, rfl⟩⟩]
    | pcr16 off => rw [h ⟨r, indirect, _, rfl, .inr ⟨off, rfl⟩⟩]
    | _ => rfl

/-! ## The trap entry -/

@[simp] theorem enterTrap_a (v : Word) (s : State) : (enterTrap v s).a = s.a := rfl
@[simp] theorem enterTrap_b (v : Word) (s : State) : (enterTrap v s).b = s.b := rfl
@[simp] theorem enterTrap_dp (v : Word) (s : State) : (enterTrap v s).dp = s.dp := rfl
@[simp] theorem enterTrap_x (v : Word) (s : State) : (enterTrap v s).x = s.x := rfl
@[simp] theorem enterTrap_y (v : Word) (s : State) : (enterTrap v s).y = s.y := rfl
@[simp] theorem enterTrap_u (v : Word) (s : State) : (enterTrap v s).u = s.u := rfl
@[simp] theorem enterTrap_cc (v : Word) (s : State) : (enterTrap v s).cc = setFlag .E true s.cc := rfl

/-- Pushing keeps the canonical form of memory. -/
theorem pushMemory_keeps_wf {m : Memory} {size : Nat} (hs : 65536 ≤ size) (sp : Word) (bs : List Byte)
    (h : Memory.wf m size = true) : Memory.wf (pushMemory m sp bs) size = true := by
  induction bs generalizing m sp with
  | nil => exact h
  | cons b bs ih => exact ih _ (Memory.write_word_keeps_wf hs _ _ h)

/-- S after pushing: one lower for each byte, modulo 65536. -/
theorem pushPointer_eq (sp : Word) (bs : List Byte) : pushPointer sp bs = sp - BitVec.ofNat 16 bs.length := by
  induction bs generalizing sp with
  | nil => simp [pushPointer]
  | cons b bs ih =>
    apply BitVec.eq_of_toNat_eq
    simp only [pushPointer, ih, BitVec.toNat_sub, BitVec.toNat_ofNat, List.length_cons]
    omega

/-- A byte outside the pushed ones reads as before; the k-th pushed byte lies k + 1 below S. -/
theorem read_pushMemory_outside {m : Memory} {sp : Word} {bs : List Byte} {i : Nat}
    (h : ∀ k, k < bs.length → i ≠ (sp - BitVec.ofNat 16 (k + 1)).toNat) :
    Memory.read (pushMemory m sp bs) i = Memory.read m i := by
  induction bs generalizing m sp with
  | nil => rfl
  | cons b bs ih =>
    rw [pushMemory, ih, Memory.read_write_other _ _ (by simpa using h 0 (by simp))]
    intro k hk hi
    refine h (k + 1) (by simpa using hk) (hi.trans (congrArg BitVec.toNat ?_))
    apply BitVec.eq_of_toNat_eq
    simp only [BitVec.toNat_sub, BitVec.toNat_ofNat]
    omega

/-- The k-th pushed byte reads back, as long as the pushes do not wrap round onto themselves. -/
theorem read_pushMemory_at {m : Memory} {sp : Word} {bs : List Byte} (hlen : bs.length ≤ 65536) {k : Nat}
    (hk : k < bs.length) : Memory.read (pushMemory m sp bs) (sp - BitVec.ofNat 16 (k + 1)).toNat = bs.getD k 0#8 := by
  induction bs generalizing m sp k with
  | nil => simp at hk
  | cons b bs ih =>
    simp only [List.length_cons] at hlen hk
    cases k with
    | zero =>
      rw [pushMemory, read_pushMemory_outside, Memory.read_write]
      · simp
      · intro j hj h
        have h := BitVec.eq_of_toNat_eq h
        have := congrArg BitVec.toNat h
        simp only [BitVec.toNat_sub, BitVec.toNat_ofNat] at this
        omega
    | succ k =>
      have hsp : sp - BitVec.ofNat 16 (k + 1 + 1) = (sp - 1#16) - BitVec.ofNat 16 (k + 1) := by
        apply BitVec.eq_of_toNat_eq
        simp only [BitVec.toNat_sub, BitVec.toNat_ofNat]
        omega
      rw [pushMemory, hsp, ih (by omega) (by omega)]
      simp

/-- SWI3 keeps the canonical form of memory: it writes twelve bytes, each at a 16-bit address. -/
theorem enterTrap_keeps_wf {size : Nat} (hs : 65536 ≤ size) (v : Word) {s : State} (h : Memory.wf s.mem size = true) :
    Memory.wf (enterTrap v s).mem size = true := pushMemory_keeps_wf hs _ _ h

end Sys2Proof.Machine
end

