-- ==== Sys2Proof/Laws/Step.lean ====
section
/-! SUPPORT. What one instruction and one step can do, said once: later proofs split on these cases instead of on the
sixty instructions. -/

namespace Sys2Proof.Machine

/-- A byte transform that writes no flag but C, V, Z and N (43_rmw.md R200). -/
def WritesArithmeticFlags (f : ByteTransform) : Prop :=
  ∀ v cc g, g ∉ [Flag.C, .V, .Z, .N] → getFlag g (f v cc).2 = getFlag g cc

theorem negByte_flags (mode : NegCMode) : WritesArithmeticFlags (negByte mode) := by
  intro v cc g hg
  cases mode <;> cases g <;> simp_all [negByte]

theorem comByte_flags : WritesArithmeticFlags comByte := by
  intro v cc g hg
  cases g <;> simp_all [comByte]

theorem lsrByte_flags : WritesArithmeticFlags lsrByte := by
  intro v cc g hg
  cases g <;> simp_all [lsrByte]

theorem rorByte_flags : WritesArithmeticFlags rorByte := by
  intro v cc g hg
  cases g <;> simp_all [rorByte]

theorem asrByte_flags : WritesArithmeticFlags asrByte := by
  intro v cc g hg
  cases g <;> simp_all [asrByte]

theorem aslByte_flags : WritesArithmeticFlags aslByte := by
  intro v cc g hg
  cases g <;> simp_all [aslByte, shiftLeftFlags]

theorem rolByte_flags : WritesArithmeticFlags rolByte := by
  intro v cc g hg
  cases g <;> simp_all [rolByte, shiftLeftFlags]

theorem decByte_flags : WritesArithmeticFlags decByte := by
  intro v cc g hg
  cases g <;> simp_all [decByte]

theorem incByte_flags : WritesArithmeticFlags incByte := by
  intro v cc g hg
  cases g <;> simp_all [incByte]

theorem tstByte_flags : WritesArithmeticFlags tstByte := by
  intro v cc g hg
  cases g <;> simp_all [tstByte]

theorem clrByte_flags : WritesArithmeticFlags clrByte := by
  intro v cc g hg
  cases g <;> simp_all [clrByte]

/-- The compares write no flag but C, V, Z and N (45_cmp16.md R270). -/
theorem compareFlags_flags (register operand : Word) (cc : Byte) {g : Flag} (hg : g ∉ [Flag.C, .V, .Z, .N]) :
    getFlag g (compareFlags register operand cc) = getFlag g cc := by
  cases g <;> simp_all [compareFlags, binaryAdd16_flags]

/-- What an instruction's execute stage does to the state `s` its operand stage left, with the effective address `ea`. -/
inductive Effect (s : State) (ea : Word) : State → Prop where
  | store (f : ByteTransform) (hf : WritesArithmeticFlags f) : Effect s ea (rmwAt f ea s)
  | test (f : ByteTransform) (hf : WritesArithmeticFlags f) : Effect s ea (testAt f ea s)
  | jump (target : Word) : Effect s ea (s.setPc target)
  | pass : Effect s ea s
  | compare (register operand : Word) : Effect s ea (s.setCc (compareFlags register operand s.cc))

/-- A long branch either jumps or passes. -/
theorem longBranch_effect (condition : Byte → Bool) (off ea : Word) (s : State) :
    Effect (immediateStage off s).2 ea (longBranch condition off s) := by
  by_cases h : condition (immediateStage off s).2.cc = true
  · simpa [longBranch, h] using Effect.jump _
  · simpa [longBranch, h] using Effect.pass

/-- Every instruction completes, and does one of these things, under every parameter value: an effect after an operand
stage, or the trap entry of SWI3. -/
theorem execWith_cases (p : Parameters) (i : Instr) (s : State) :
    ∃ t, execWith p i s = .next t ∧
      ((∃ operand : Word × State, StageOf s operand.2 ∧ Effect operand.2 operand.1 t ∧ i ≠ .swi3 ∧
          (∀ q, ¬ AutoModifies i q → operand.2.base q = s.base q)) ∨
        (i = .swi3 ∧ t = enterTrap p.swi3Vector s)) := by
  cases i with
  | negDirect dd =>
    exact ⟨_, rfl, .inl ⟨directStage dd s, directStage_stage dd s, .store _ (negByte_flags _), nofun, fun q _ => by cases q <;> rfl⟩⟩
  | negIndexed ix =>
    exact ⟨_, rfl, .inl ⟨indexedStage ix s p.pcrBase, indexedStage_stage ix s, .store _ (negByte_flags _), nofun, fun q hq => indexedStage_base (fun m hm hmem => hq ⟨m, by rw [← hm]; rfl, hmem⟩) s⟩⟩
  | negExtended ea =>
    exact ⟨_, rfl, .inl ⟨extendedStage ea s, extendedStage_stage ea s, .store _ (negByte_flags _), nofun, fun q _ => by cases q <;> rfl⟩⟩
  | comDirect dd =>
    exact ⟨_, rfl, .inl ⟨directStage dd s, directStage_stage dd s, .store _ comByte_flags, nofun, fun q _ => by cases q <;> rfl⟩⟩
  | comIndexed ix =>
    exact ⟨_, rfl, .inl ⟨indexedStage ix s p.pcrBase, indexedStage_stage ix s, .store _ comByte_flags, nofun, fun q hq => indexedStage_base (fun m hm hmem => hq ⟨m, by rw [← hm]; rfl, hmem⟩) s⟩⟩
  | comExtended ea =>
    exact ⟨_, rfl, .inl ⟨extendedStage ea s, extendedStage_stage ea s, .store _ comByte_flags, nofun, fun q _ => by cases q <;> rfl⟩⟩
  | lsrDirect dd =>
    exact ⟨_, rfl, .inl ⟨directStage dd s, directStage_stage dd s, .store _ lsrByte_flags, nofun, fun q _ => by cases q <;> rfl⟩⟩
  | lsrIndexed ix =>
    exact ⟨_, rfl, .inl ⟨indexedStage ix s p.pcrBase, indexedStage_stage ix s, .store _ lsrByte_flags, nofun, fun q hq => indexedStage_base (fun m hm hmem => hq ⟨m, by rw [← hm]; rfl, hmem⟩) s⟩⟩
  | lsrExtended ea =>
    exact ⟨_, rfl, .inl ⟨extendedStage ea s, extendedStage_stage ea s, .store _ lsrByte_flags, nofun, fun q _ => by cases q <;> rfl⟩⟩
  | rorDirect dd =>
    exact ⟨_, rfl, .inl ⟨directStage dd s, directStage_stage dd s, .store _ rorByte_flags, nofun, fun q _ => by cases q <;> rfl⟩⟩
  | rorIndexed ix =>
    exact ⟨_, rfl, .inl ⟨indexedStage ix s p.pcrBase, indexedStage_stage ix s, .store _ rorByte_flags, nofun, fun q hq => indexedStage_base (fun m hm hmem => hq ⟨m, by rw [← hm]; rfl, hmem⟩) s⟩⟩
  | rorExtended ea =>
    exact ⟨_, rfl, .inl ⟨extendedStage ea s, extendedStage_stage ea s, .store _ rorByte_flags, nofun, fun q _ => by cases q <;> rfl⟩⟩
  | asrDirect dd =>
    exact ⟨_, rfl, .inl ⟨directStage dd s, directStage_stage dd s, .store _ asrByte_flags, nofun, fun q _ => by cases q <;> rfl⟩⟩
  | asrIndexed ix =>
    exact ⟨_, rfl, .inl ⟨indexedStage ix s p.pcrBase, indexedStage_stage ix s, .store _ asrByte_flags, nofun, fun q hq => indexedStage_base (fun m hm hmem => hq ⟨m, by rw [← hm]; rfl, hmem⟩) s⟩⟩
  | asrExtended ea =>
    exact ⟨_, rfl, .inl ⟨extendedStage ea s, extendedStage_stage ea s, .store _ asrByte_flags, nofun, fun q _ => by cases q <;> rfl⟩⟩
  | aslDirect dd =>
    exact ⟨_, rfl, .inl ⟨directStage dd s, directStage_stage dd s, .store _ aslByte_flags, nofun, fun q _ => by cases q <;> rfl⟩⟩
  | aslIndexed ix =>
    exact ⟨_, rfl, .inl ⟨indexedStage ix s p.pcrBase, indexedStage_stage ix s, .store _ aslByte_flags, nofun, fun q hq => indexedStage_base (fun m hm hmem => hq ⟨m, by rw [← hm]; rfl, hmem⟩) s⟩⟩
  | aslExtended ea =>
    exact ⟨_, rfl, .inl ⟨extendedStage ea s, extendedStage_stage ea s, .store _ aslByte_flags, nofun, fun q _ => by cases q <;> rfl⟩⟩
  | rolDirect dd =>
    exact ⟨_, rfl, .inl ⟨directStage dd s, directStage_stage dd s, .store _ rolByte_flags, nofun, fun q _ => by cases q <;> rfl⟩⟩
  | rolIndexed ix =>
    exact ⟨_, rfl, .inl ⟨indexedStage ix s p.pcrBase, indexedStage_stage ix s, .store _ rolByte_flags, nofun, fun q hq => indexedStage_base (fun m hm hmem => hq ⟨m, by rw [← hm]; rfl, hmem⟩) s⟩⟩
  | rolExtended ea =>
    exact ⟨_, rfl, .inl ⟨extendedStage ea s, extendedStage_stage ea s, .store _ rolByte_flags, nofun, fun q _ => by cases q <;> rfl⟩⟩
  | decDirect dd =>
    exact ⟨_, rfl, .inl ⟨directStage dd s, directStage_stage dd s, .store _ decByte_flags, nofun, fun q _ => by cases q <;> rfl⟩⟩
  | decIndexed ix =>
    exact ⟨_, rfl, .inl ⟨indexedStage ix s p.pcrBase, indexedStage_stage ix s, .store _ decByte_flags, nofun, fun q hq => indexedStage_base (fun m hm hmem => hq ⟨m, by rw [← hm]; rfl, hmem⟩) s⟩⟩
  | decExtended ea =>
    exact ⟨_, rfl, .inl ⟨extendedStage ea s, extendedStage_stage ea s, .store _ decByte_flags, nofun, fun q _ => by cases q <;> rfl⟩⟩
  | incDirect dd =>
    exact ⟨_, rfl, .inl ⟨directStage dd s, directStage_stage dd s, .store _ incByte_flags, nofun, fun q _ => by cases q <;> rfl⟩⟩
  | incIndexed ix =>
    exact ⟨_, rfl, .inl ⟨indexedStage ix s p.pcrBase, indexedStage_stage ix s, .store _ incByte_flags, nofun, fun q hq => indexedStage_base (fun m hm hmem => hq ⟨m, by rw [← hm]; rfl, hmem⟩) s⟩⟩
  | incExtended ea =>
    exact ⟨_, rfl, .inl ⟨extendedStage ea s, extendedStage_stage ea s, .store _ incByte_flags, nofun, fun q _ => by cases q <;> rfl⟩⟩
  | tstDirect dd =>
    exact ⟨_, rfl, .inl ⟨directStage dd s, directStage_stage dd s, .test _ tstByte_flags, nofun, fun q _ => by cases q <;> rfl⟩⟩
  | tstIndexed ix =>
    exact ⟨_, rfl, .inl ⟨indexedStage ix s p.pcrBase, indexedStage_stage ix s, .test _ tstByte_flags, nofun, fun q hq => indexedStage_base (fun m hm hmem => hq ⟨m, by rw [← hm]; rfl, hmem⟩) s⟩⟩
  | tstExtended ea =>
    exact ⟨_, rfl, .inl ⟨extendedStage ea s, extendedStage_stage ea s, .test _ tstByte_flags, nofun, fun q _ => by cases q <;> rfl⟩⟩
  | clrDirect dd =>
    exact ⟨_, rfl, .inl ⟨directStage dd s, directStage_stage dd s, .store _ clrByte_flags, nofun, fun q _ => by cases q <;> rfl⟩⟩
  | clrIndexed ix =>
    exact ⟨_, rfl, .inl ⟨indexedStage ix s p.pcrBase, indexedStage_stage ix s, .store _ clrByte_flags, nofun, fun q hq => indexedStage_base (fun m hm hmem => hq ⟨m, by rw [← hm]; rfl, hmem⟩) s⟩⟩
  | clrExtended ea =>
    exact ⟨_, rfl, .inl ⟨extendedStage ea s, extendedStage_stage ea s, .store _ clrByte_flags, nofun, fun q _ => by cases q <;> rfl⟩⟩
  | jmpDirect dd =>
    exact ⟨_, rfl, .inl ⟨directStage dd s, directStage_stage dd s, .jump _, nofun, fun q _ => by cases q <;> rfl⟩⟩
  | jmpIndexed ix =>
    exact ⟨_, rfl, .inl ⟨indexedStage ix s p.pcrBase, indexedStage_stage ix s, .jump _, nofun, fun q hq => indexedStage_base (fun m hm hmem => hq ⟨m, by rw [← hm]; rfl, hmem⟩) s⟩⟩
  | jmpExtended ea =>
    exact ⟨_, rfl, .inl ⟨extendedStage ea s, extendedStage_stage ea s, .jump _, nofun, fun q _ => by cases q <;> rfl⟩⟩
  | lbrn off =>
    exact ⟨_, rfl, .inl ⟨immediateStage off s, immediateStage_stage off s, longBranch_effect _ off _ s, nofun, fun q _ => by cases q <;> rfl⟩⟩
  | lbhi off =>
    exact ⟨_, rfl, .inl ⟨immediateStage off s, immediateStage_stage off s, longBranch_effect _ off _ s, nofun, fun q _ => by cases q <;> rfl⟩⟩
  | lbls off =>
    exact ⟨_, rfl, .inl ⟨immediateStage off s, immediateStage_stage off s, longBranch_effect _ off _ s, nofun, fun q _ => by cases q <;> rfl⟩⟩
  | lbcc off =>
    exact ⟨_, rfl, .inl ⟨immediateStage off s, immediateStage_stage off s, longBranch_effect _ off _ s, nofun, fun q _ => by cases q <;> rfl⟩⟩
  | lbcs off =>
    exact ⟨_, rfl, .inl ⟨immediateStage off s, immediateStage_stage off s, longBranch_effect _ off _ s, nofun, fun q _ => by cases q <;> rfl⟩⟩
  | lbne off =>
    exact ⟨_, rfl, .inl ⟨immediateStage off s, immediateStage_stage off s, longBranch_effect _ off _ s, nofun, fun q _ => by cases q <;> rfl⟩⟩
  | lbeq off =>
    exact ⟨_, rfl, .inl ⟨immediateStage off s, immediateStage_stage off s, longBranch_effect _ off _ s, nofun, fun q _ => by cases q <;> rfl⟩⟩
  | lbvc off =>
    exact ⟨_, rfl, .inl ⟨immediateStage off s, immediateStage_stage off s, longBranch_effect _ off _ s, nofun, fun q _ => by cases q <;> rfl⟩⟩
  | lbvs off =>
    exact ⟨_, rfl, .inl ⟨immediateStage off s, immediateStage_stage off s, longBranch_effect _ off _ s, nofun, fun q _ => by cases q <;> rfl⟩⟩
  | lbpl off =>
    exact ⟨_, rfl, .inl ⟨immediateStage off s, immediateStage_stage off s, longBranch_effect _ off _ s, nofun, fun q _ => by cases q <;> rfl⟩⟩
  | lbmi off =>
    exact ⟨_, rfl, .inl ⟨immediateStage off s, immediateStage_stage off s, longBranch_effect _ off _ s, nofun, fun q _ => by cases q <;> rfl⟩⟩
  | lbge off =>
    exact ⟨_, rfl, .inl ⟨immediateStage off s, immediateStage_stage off s, longBranch_effect _ off _ s, nofun, fun q _ => by cases q <;> rfl⟩⟩
  | lblt off =>
    exact ⟨_, rfl, .inl ⟨immediateStage off s, immediateStage_stage off s, longBranch_effect _ off _ s, nofun, fun q _ => by cases q <;> rfl⟩⟩
  | lbgt off =>
    exact ⟨_, rfl, .inl ⟨immediateStage off s, immediateStage_stage off s, longBranch_effect _ off _ s, nofun, fun q _ => by cases q <;> rfl⟩⟩
  | lble off =>
    exact ⟨_, rfl, .inl ⟨immediateStage off s, immediateStage_stage off s, longBranch_effect _ off _ s, nofun, fun q _ => by cases q <;> rfl⟩⟩
  | swi3 => exact ⟨_, rfl, .inr ⟨rfl, rfl⟩⟩
  | cmpdImmediate imm =>
    exact ⟨_, rfl, .inl ⟨immediateStage imm s, immediateStage_stage imm s, .compare _ _, nofun, fun q _ => by cases q <;> rfl⟩⟩
  | cmpdDirect dd =>
    exact ⟨_, rfl, .inl ⟨directStage dd s, directStage_stage dd s, .compare _ _, nofun, fun q _ => by cases q <;> rfl⟩⟩
  | cmpdIndexed ix =>
    exact ⟨_, rfl, .inl ⟨indexedStage ix s p.pcrBase, indexedStage_stage ix s, .compare _ _, nofun, fun q hq => indexedStage_base (fun m hm hmem => hq ⟨m, by rw [← hm]; rfl, hmem⟩) s⟩⟩
  | cmpdExtended ea =>
    exact ⟨_, rfl, .inl ⟨extendedStage ea s, extendedStage_stage ea s, .compare _ _, nofun, fun q _ => by cases q <;> rfl⟩⟩
  | cmpyImmediate imm =>
    exact ⟨_, rfl, .inl ⟨immediateStage imm s, immediateStage_stage imm s, .compare _ _, nofun, fun q _ => by cases q <;> rfl⟩⟩
  | cmpyDirect dd =>
    exact ⟨_, rfl, .inl ⟨directStage dd s, directStage_stage dd s, .compare _ _, nofun, fun q _ => by cases q <;> rfl⟩⟩
  | cmpyIndexed ix =>
    exact ⟨_, rfl, .inl ⟨indexedStage ix s p.pcrBase, indexedStage_stage ix s, .compare _ _, nofun, fun q hq => indexedStage_base (fun m hm hmem => hq ⟨m, by rw [← hm]; rfl, hmem⟩) s⟩⟩
  | cmpyExtended ea =>
    exact ⟨_, rfl, .inl ⟨extendedStage ea s, extendedStage_stage ea s, .compare _ _, nofun, fun q _ => by cases q <;> rfl⟩⟩

/-- The meanings of `exec` are those of the default parameters. -/
theorem execWith_default (i : Instr) (s : State) : execWith defaultParameters i s = exec i s := by
  cases i <;> rfl

/-- An instruction depends on a parameter only where a rule says so: NEG on NEG_C_MODE, a PC-relative operand on PCR_BASE,
SWI3 on SWI3_VECTOR (00_scope.md R6). -/
theorem execWith_congr {p q : Parameters} {i : Instr} (hn : IsNeg i → p.negCMode = q.negCMode)
    (hp : PcRelative i → p.pcrBase = q.pcrBase) (hv : i = .swi3 → p.swi3Vector = q.swi3Vector)
    (s : State) : execWith p i s = execWith q i s := by
  have hix : ∀ ix, indexedOperand i = some ix → indexedStage ix s p.pcrBase = indexedStage ix s q.pcrBase :=
    fun ix hi => indexedStage_congr (fun ⟨r, ind, m, hm, h⟩ => hp ⟨r, ind, m, hi.trans (congrArg some hm), h⟩) s
  cases i with
  | negDirect dd => simp only [execWith, execNegDirect, hn (.inl ⟨dd, rfl⟩)]
  | negExtended ea => simp only [execWith, execNegExtended, hn (.inr (.inr ⟨ea, rfl⟩))]
  | negIndexed ix => simp only [execWith, execNegIndexed, hn (.inr (.inl ⟨ix, rfl⟩)), hix ix rfl]
  | comIndexed ix => simp only [execWith, execComIndexed, hix ix rfl]
  | lsrIndexed ix => simp only [execWith, execLsrIndexed, hix ix rfl]
  | rorIndexed ix => simp only [execWith, execRorIndexed, hix ix rfl]
  | asrIndexed ix => simp only [execWith, execAsrIndexed, hix ix rfl]
  | aslIndexed ix => simp only [execWith, execAslIndexed, hix ix rfl]
  | rolIndexed ix => simp only [execWith, execRolIndexed, hix ix rfl]
  | decIndexed ix => simp only [execWith, execDecIndexed, hix ix rfl]
  | incIndexed ix => simp only [execWith, execIncIndexed, hix ix rfl]
  | tstIndexed ix => simp only [execWith, execTstIndexed, hix ix rfl]
  | clrIndexed ix => simp only [execWith, execClrIndexed, hix ix rfl]
  | jmpIndexed ix => simp only [execWith, execJmpIndexed, hix ix rfl]
  | cmpdIndexed ix => simp only [execWith, execCmpdIndexed, hix ix rfl]
  | cmpyIndexed ix => simp only [execWith, execCmpyIndexed, hix ix rfl]
  | swi3 => simp only [execWith, execSwi3, hv rfl]
  | _ => rfl

/-- The same of `exec`. -/
theorem exec_cases (i : Instr) (s : State) :
    ∃ t, exec i s = .next t ∧
      ((∃ operand : Word × State, StageOf s operand.2 ∧ Effect operand.2 operand.1 t ∧ i ≠ .swi3 ∧
          (∀ q, ¬ AutoModifies i q → operand.2.base q = s.base q)) ∨
        (i = .swi3 ∧ t = enterTrap swi3Vector s)) :=
  execWith_default i s ▸ execWith_cases defaultParameters i s

/-- The execution of an instruction keeps the canonical form of every image that holds the 16-bit addresses. -/
theorem execWith_keeps_wf {p : Parameters} {i : Instr} {s t : State} {size : Nat} (hsize : 65536 ≤ size)
    (hs : Memory.wf s.mem size = true) (h : execWith p i s = .next t) : Memory.wf t.mem size = true := by
  obtain ⟨t', ht, hc⟩ := execWith_cases p i s
  rw [ht] at h
  cases h
  rcases hc with ⟨operand, hst, he, -⟩ | ⟨-, rfl⟩
  · have hm : Memory.wf operand.2.mem size = true := hst.mem ▸ hs
    cases he with
    | store f => exact Memory.write_word_keeps_wf hsize _ _ hm
    | _ => exact hm
  · exact enterTrap_keeps_wf hsize _ hs

/-- executeInstruction, stage by stage (42_engine.md R180). -/
theorem executeInstruction_eq (s : State) :
    executeInstruction s =
      match decode (instructionStream s) with
      | .ok i => executeDecoded defaultParameters exec i (afterOpcode s)
      | .error (.unassigned page op) => unassignedOutcome unassignedPolicy page op (afterOpcode s)
      | .error (.invalidPostbyte pb) => .faulted (.invalidAddressingMode pb) (afterOpcode s) := rfl

/-- The step of the default parameters is `step`. -/
theorem stepWith_default (s : State) : stepWith defaultParameters s = step s := by
  have h : execWith defaultParameters = exec := funext fun i => funext fun s => execWith_default i s
  rw [stepWith, executeInstructionWith, h]
  rfl

/-- A stream that decodes under a map gives a completed step with its cycle count, under every parameter value. -/
theorem executeInstructionWith_of_decode {p : Parameters} {s : State} {i : Instr}
    (h : decode (instructionStream s) p.opcodeMap = .ok i) :
    ∃ t, execWith p i (afterOpcode s) = .next t ∧ stepWith p s = .next t ∧
      executeInstructionWith p s = .completed t (cycleCount p.cmp16Cycles i (afterOpcode s)) := by
  obtain ⟨t, ht, -⟩ := execWith_cases p i (afterOpcode s)
  have he : executeInstructionWith p s = .completed t (cycleCount p.cmp16Cycles i (afterOpcode s)) := by
    simp [executeInstructionWith, executeUnder, h, executeDecoded, ht]
  exact ⟨t, ht, by simp [stepWith, he, StepResult.outcome], he⟩

/-- An Indexed operand has at least its postbyte (70_reset_and_hazards.md R349: n is 1, 2 or 3). -/
theorem indexedBytes_pos (ix : Indexed) : 0 < indexedBytes ix := by
  rcases ix with _ | ⟨_, _, m⟩
  · exact Nat.one_pos
  · cases m <;> exact Nat.succ_pos _

/-- A long branch takes 5 or 6 cycles (44_jmp_lbranch.md R241). -/
theorem branchCycles_pos (condition : Byte → Bool) (s : State) : 0 < branchCycles condition s := by
  unfold branchCycles
  split <;> exact Nat.succ_pos _

/-- An instruction's count is never 0, whatever CMP16_CYCLES is (60_exceptions.md R321). -/
theorem cycleCount_pos (cmp : Cmp16Cycles) (i : Instr) (s : State) : 0 < cycleCount cmp i s := by
  cases i with
  | cmpdImmediate _ | cmpyImmediate _ => exact cmp.immediate_pos
  | cmpdDirect _ | cmpyDirect _ => exact cmp.direct_pos
  | cmpdExtended _ | cmpyExtended _ => exact cmp.extended_pos
  | negIndexed ix | comIndexed ix | lsrIndexed ix | rorIndexed ix | asrIndexed ix | aslIndexed ix | rolIndexed ix
  | decIndexed ix | incIndexed ix | tstIndexed ix | clrIndexed ix | jmpIndexed ix | cmpdIndexed ix | cmpyIndexed ix =>
    exact Nat.add_pos_right _ (indexedBytes_pos ix)
  | lbrn _ | lbhi _ | lbls _ | lbcc _ | lbcs _ | lbne _ | lbeq _ | lbvc _ | lbvs _ | lbpl _ | lbmi _ | lbge _ | lblt _
  | lbgt _ | lble _ => exact branchCycles_pos _ s
  | _ => exact Nat.succ_pos _

/-- A step under given parameters that answers a next state ran an instruction, or passed over an unassigned opcode. -/
theorem stepWith_next {p : Parameters} {s t : State} (h : stepWith p s = .next t) :
    (∃ i, decode (instructionStream s) p.opcodeMap = .ok i ∧ execWith p i (afterOpcode s) = .next t) ∨
      (p.unassignedPolicy = .nop ∧ t = afterOpcode s) := by
  unfold stepWith executeInstructionWith executeUnder at h
  split at h
  · rename_i i hi
    obtain ⟨u, hu, -⟩ := execWith_cases p i (afterOpcode s)
    simp only [executeDecoded, hu, StepResult.outcome] at h
    exact .inl ⟨i, hi, by rw [hu, h]⟩
  · cases hp : p.unassignedPolicy <;> simp [hp, unassignedOutcome, StepResult.outcome] at h
    exact .inr ⟨rfl, h.symm⟩
  · simp [StepResult.outcome] at h

/-- What a step does: it runs the decoded instruction, or stops with one of the two step faults (60_exceptions.md R301,
R303). -/
theorem step_cases (s : State) :
    (∃ i, decode (instructionStream s) = .ok i ∧ step s = exec i (afterOpcode s)) ∨
    (∃ page op, decode (instructionStream s) = .error (.unassigned page op) ∧
      step s = .fault (.unimplementedOpcode page op)) ∨
    (∃ pb, decode (instructionStream s) = .error (.invalidPostbyte pb) ∧ step s = .fault (.invalidAddressingMode pb)) := by
  rw [step, executeInstruction_eq]
  cases h : decode (instructionStream s) with
  | ok i =>
    refine .inl ⟨i, rfl, ?_⟩
    obtain ⟨t, ht, -⟩ := exec_cases i (afterOpcode s)
    simp [executeDecoded, ht, StepResult.outcome]
  | error r =>
    cases r with
    | unassigned page op => exact .inr (.inl ⟨page, op, rfl, rfl⟩)
    | invalidPostbyte pb => exact .inr (.inr ⟨pb, rfl, rfl⟩)

/-- A step that answers a next state ran an instruction from the state after the opcode bytes. -/
theorem step_next {s t : State} (h : step s = .next t) :
    ∃ i, decode (instructionStream s) = .ok i ∧ exec i (afterOpcode s) = .next t := by
  rcases step_cases s with ⟨i, hd, hs⟩ | ⟨page, op, -, hs⟩ | ⟨pb, -, hs⟩
  · exact ⟨i, hd, hs ▸ h⟩
  · rw [hs] at h; cases h
  · rw [hs] at h; cases h

/-- A stream that decodes gives a completed step with its cycle count. -/
theorem executeInstruction_of_decode {s : State} {i : Instr} (h : decode (instructionStream s) = .ok i) :
    ∃ t, exec i (afterOpcode s) = .next t ∧ step s = .next t ∧
      executeInstruction s = .completed t (cycleCount cmp16Cycles i (afterOpcode s)) := by
  obtain ⟨t, ht, -⟩ := exec_cases i (afterOpcode s)
  have he : executeInstruction s = .completed t (cycleCount cmp16Cycles i (afterOpcode s)) := by
    rw [executeInstruction_eq, h]
    simp only [executeDecoded, ht]
    rfl
  exact ⟨t, ht, by simp [step, he, StepResult.outcome], he⟩

/-- PC after an instruction that does not replace it: past the operand bytes (42_engine.md R183). -/
theorem exec_pc {i : Instr} {s t : State} (hr : replacesPc i = false) (h : exec i s = .next t) :
    t.pc = advanceWord s.pc ((encode i).length - i.page.opcodeBytes) := by
  cases i <;> first
    | (cases h; rfl)
    | (cases hr; done)
    | (cases h; exact (indexedStage_pc _ s).trans (by rw [← Indexed.bytes_length]; rfl))

/-! ## The shared meanings, one lemma each -/

/-- The read-modify-write template: the byte at `ea` and CC, and nothing else (43_rmw.md R200). -/
theorem rmwAt_eq (f : ByteTransform) (ea : Word) (s : State) :
    rmwAt f ea s =
      { s with cc := (f (s.readByte ea) s.cc).2, mem := Memory.write s.mem ea.toNat (f (s.readByte ea) s.cc).1 } := rfl

/-- The test template: CC and nothing else (43_rmw.md R210). -/
theorem testAt_eq (f : ByteTransform) (ea : Word) (s : State) :
    testAt f ea s = { s with cc := (f (s.readByte ea) s.cc).2 } := rfl

/-- A long branch writes PC and nothing else (44_jmp_lbranch.md R241). -/
theorem longBranch_eq (condition : Byte → Bool) (off : Word) (s : State) :
    longBranch condition off s =
      s.setPc (if condition s.cc then advanceWord s.pc 2 + off else advanceWord s.pc 2) := by
  by_cases h : condition s.cc = true
  · rw [longBranch, if_pos (by exact h), if_pos h]; rfl
  · rw [longBranch, if_neg (by exact h), if_neg h]; rfl

/-- Z of a byte as arithmetic (41_alu_primitives.md R151). -/
theorem isZero8_eq (r : Byte) : isZero8 r = decide (r.toNat = 0) := by
  rw [isZero8, Bool.eq_iff_iff]
  simp [BitVec.toNat_eq]

/-- N of a byte as arithmetic (41_alu_primitives.md R151). -/
theorem isNegative8_eq (r : Byte) : isNegative8 r = decide (128 ≤ r.toNat) := by
  have h : ∀ r : Byte, isNegative8 r = decide (128 ≤ r.toNat) := by decide +kernel
  exact h r

/-- N of a word as arithmetic (41_alu_primitives.md R151). -/
theorem isNegative16_eq (r : Word) : isNegative16 r = decide (32768 ≤ r.toNat) := by
  have := r.isLt
  rw [isNegative16, ← BitVec.msb_eq_getLsbD_last, BitVec.msb_eq_decide]

/-! ## The host port -/

/-- A host move keeps the canonical form of memory (20_memory.md R66, R71). -/
theorem hostMove_keeps_wf {m : HostMove} {s t : State} {size : Nat} (hs : Memory.wf s.mem size = true)
    (h : hostMove m s size = .ok t) : Memory.wf t.mem size = true := by
  cases m with
  | writeByte i v =>
    simp only [hostMove, hostWriteByte] at h
    split at h
    · rename_i hi
      cases h
      exact Memory.write_keeps_wf v hi hs
    · cases h
  | _ => cases h; exact hs

end Sys2Proof.Machine
end

