-- ==== Sys2Proof/Laws/Accesses.lean ====
section
/-! SUPPORT. The laws of the access list: what each part of it is as a run of byte accesses, the list of an instruction by
its operand and its data use, and the memory its writes give. -/

namespace Sys2Proof.Machine

/-! ## The parts of a list -/

/-- A run of reads, by the addresses as arithmetic. -/
theorem readRun_eq (a : Word) (n : Nat) : readRun a n = byteReads a n := by
  induction n with
  | zero => rfl
  | succ n ih => simp [readRun, ih, byteReads, List.range_succ, advanceWord_eq_ofNat]

/-- Two runs of reads, the second beginning where the first ends, are one. -/
theorem byteReads_append (a : Word) (m n : Nat) :
    byteReads a m ++ byteReads (advanceWord a m) n = byteReads a (m + n) := by
  simp only [byteReads, List.range_add, List.map_append, List.map_map]
  congr 1
  apply List.map_congr_left
  intro k _
  simp only [Function.comp_apply, ← advanceWord_eq_ofNat, advanceWord_advanceWord]

/-- A word read is two byte reads (20_memory.md R59). -/
theorem readWordAccesses_eq (a : Word) : readWordAccesses a = byteReads a 2 := by
  simp [readWordAccesses, byteReads, List.range_succ, nextWord_eq_advanceWord, advanceWord_eq_ofNat]

/-- Pushing writes downwards from below S, one byte each. -/
theorem pushAccesses_eq (sp : Word) (bs : List Byte) :
    pushAccesses sp bs =
      (List.range bs.length).map fun k => .write (sp - BitVec.ofNat 16 (k + 1)) (bs.getD k 0#8) := by
  induction bs generalizing sp with
  | nil => rfl
  | cons b bs ih =>
    have h : ∀ k, sp - 1#16 - BitVec.ofNat 16 (k + 1) = sp - BitVec.ofNat 16 (k + 1 + 1) := by
      intro k
      apply BitVec.eq_of_toNat_eq
      simp only [BitVec.toNat_sub, BitVec.toNat_ofNat]
      omega
    simp [pushAccesses, ih, List.range_succ_eq_map, h, Function.comp_def]

/-- The accesses of the trap entry: the frame from its highest byte down, then the vector (20_memory.md R65). -/
theorem trapAccesses_eq (vector : Word) (u : State) : trapAccesses vector u = swi3Accesses vector u := by
  rw [trapAccesses, pushAccesses_eq, readWordAccesses_eq]
  rfl

/-- The Indexed resolver reads its operand bytes, then the pointer of an indirect operand. -/
theorem indexedAccesses_eq {i : Instr} {ix : Indexed} (h : indexedOperand i = some ix) (u : State) :
    indexedAccesses ix u = byteReads u.pc ix.bytes.length ++ pointerReads i u := by
  rw [Indexed.bytes_length]
  cases ix with
  | offset5 => simp [indexedAccesses, pointerReads, h, readRun_eq, indexedBytes]
  | mode r indirect m =>
    cases indirect <;>
      simp [indexedAccesses, pointerReads, h, readRun_eq, indexedBytes, readWordAccesses_eq, resolveIndexed]

/-! ## The list of an instruction -/

/-- A read-modify-write instruction reads its byte and writes what memory then holds there. -/
theorem dataAccesses_modify {i : Instr} {u t : State} {f : ByteTransform} {operand : Word × State}
    (hd : dataUse i u = some (.modify, operand.1)) (ht : t = rmwAt f operand.1 operand.2) :
    dataAccesses i u t = rmwAccesses f operand := by
  have h : t.readByte operand.1 = (f (operand.2.readByte operand.1) operand.2.cc).1 := by
    rw [ht, rmwAt_eq, State.readByte, Memory.read_write_same]
  rw [dataAccesses, hd]
  simp only [h]
  rfl

/-- A compare with memory reads its word. -/
theorem dataAccesses_compare {i : Instr} {u t : State} {a : Word} (hd : dataUse i u = some (.compare, a)) :
    dataAccesses i u t = readWordAccesses a := by
  rw [dataAccesses, hd, readWordAccesses_eq]

/-- What the list of an instruction other than SWI3 must be: the operand bytes, the pointer, the data. -/
abbrev ListsAccesses (i : Instr) (u t : State) : Prop :=
  instrAccesses i u =
    byteReads u.pc ((encode i).length - i.page.opcodeBytes) ++ (pointerReads i u ++ dataAccesses i u t)

/-- The list of a form without a pointer. -/
theorem listsAccesses_plain {i : Instr} {u t : State} {n : Nat} {l : List Access}
    (ha : instrAccesses i u = readRun u.pc n ++ l) (hn : (encode i).length - i.page.opcodeBytes = n)
    (hp : pointerReads i u = []) (hd : dataAccesses i u t = l) : ListsAccesses i u t := by
  rw [ListsAccesses, ha, hn, hp, hd, readRun_eq]
  rfl

/-- The list of an Indexed form. -/
theorem listsAccesses_indexed {i : Instr} {u t : State} {ix : Indexed} {l : List Access}
    (ha : instrAccesses i u = indexedAccesses ix u ++ l)
    (hn : (encode i).length - i.page.opcodeBytes = ix.bytes.length) (hi : indexedOperand i = some ix)
    (hd : dataAccesses i u t = l) : ListsAccesses i u t := by
  rw [ListsAccesses, ha, hn, hd, indexedAccesses_eq hi u, List.append_assoc]

/-- The accesses of every instruction other than SWI3 after its opcode bytes (20_memory.md R65 steps 3 to 6). -/
theorem instrAccesses_eq {i : Instr} {u t : State} (h : exec i u = .next t) (hi : i ≠ .swi3) : ListsAccesses i u t := by
  cases i with
  | swi3 => exact absurd rfl hi
  | negDirect dd | comDirect dd | lsrDirect dd | rorDirect dd | asrDirect dd | aslDirect dd | rolDirect dd
  | decDirect dd | incDirect dd | clrDirect dd =>
    cases h
    exact listsAccesses_plain rfl rfl rfl (dataAccesses_modify (operand := directStage dd u) rfl rfl)
  | negExtended ea | comExtended ea | lsrExtended ea | rorExtended ea | asrExtended ea | aslExtended ea
  | rolExtended ea | decExtended ea | incExtended ea | clrExtended ea =>
    cases h
    exact listsAccesses_plain rfl rfl rfl (dataAccesses_modify (operand := extendedStage ea u) rfl rfl)
  | negIndexed ix | comIndexed ix | lsrIndexed ix | rorIndexed ix | asrIndexed ix | aslIndexed ix | rolIndexed ix
  | decIndexed ix | incIndexed ix | clrIndexed ix =>
    cases h
    exact listsAccesses_indexed rfl rfl rfl (dataAccesses_modify (operand := indexedStage ix u) rfl rfl)
  | tstDirect _ | tstExtended _ => exact listsAccesses_plain rfl rfl rfl rfl
  | tstIndexed _ => exact listsAccesses_indexed rfl rfl rfl rfl
  | jmpIndexed _ => exact listsAccesses_indexed (List.append_nil _).symm rfl rfl rfl
  | cmpdIndexed _ | cmpyIndexed _ => exact listsAccesses_indexed rfl rfl rfl (dataAccesses_compare rfl)
  | cmpdDirect _ | cmpdExtended _ | cmpyDirect _ | cmpyExtended _ =>
    exact listsAccesses_plain rfl rfl rfl (dataAccesses_compare rfl)
  | _ => exact listsAccesses_plain (List.append_nil _).symm rfl rfl rfl

/-! ## The memory the writes of a list give -/

/-- Reads leave memory alone. -/
theorem foldl_readRun (n : Nat) (a : Word) (m : Memory) : (readRun a n).foldl applyAccess m = m := by
  induction n with
  | zero => rfl
  | succ n ih => simp [readRun, List.foldl_append, ih, applyAccess]

/-- The Indexed resolver makes no write. -/
theorem foldl_indexedAccesses (ix : Indexed) (s : State) {base : PcrBase} (m : Memory) :
    (indexedAccesses ix s base).foldl applyAccess m = m := by
  cases ix with
  | offset5 => exact foldl_readRun _ _ _
  | mode r indirect sm =>
    cases indirect <;> simp [indexedAccesses, List.foldl_append, foldl_readRun, readWordAccesses, applyAccess]

/-- The pushes of the access list are those of the stack. -/
theorem foldl_pushAccesses (sp : Word) (bs : List Byte) (m : Memory) :
    (pushAccesses sp bs).foldl applyAccess m = pushMemory m sp bs := by
  induction bs generalizing sp m with
  | nil => rfl
  | cons b bs ih => exact ih _ _

/-- The writes of an instruction's list give the memory after it. -/
theorem instrAccesses_memory {i : Instr} {s t : State} (h : exec i s = .next t) :
    t.mem = (instrAccesses i s).foldl applyAccess s.mem := by
  have hi : ∀ ix, (indexedStage ix s defaultParameters.pcrBase).2.mem = s.mem := fun ix => (indexedStage_stage ix s).mem
  cases i <;> cases h <;>
    simp only [instrAccesses, List.foldl_append, foldl_readRun, foldl_indexedAccesses, rmwAccesses, List.foldl_cons,
      List.foldl_nil, applyAccess, readWordAccesses, trapAccesses, foldl_pushAccesses, longBranch_eq, rmwAt_eq,
      testAt_eq, hi, compareMemory, State.setCc_mem, State.setPc_mem] <;> rfl

/-! ## The list of a step, by what its stream decodes to -/

/-- The list of a step under the default OPCODE_MAP. -/
theorem stepAccesses_default (s : State) :
    stepAccesses s = readRun s.pc (opcodePage (instructionStream s)).opcodeBytes ++
      match decode (instructionStream s) with
      | .ok i => instrAccesses i (afterOpcode s)
      | .error (.unassigned _ _) => []
      | .error (.invalidPostbyte _) => readRun (afterOpcode s).pc 1 := rfl

theorem stepAccesses_ok {s : State} {i : Instr} (h : decode (instructionStream s) = .ok i) :
    stepAccesses s =
      readRun s.pc (opcodePage (instructionStream s)).opcodeBytes ++ instrAccesses i (afterOpcode s) := by
  rw [stepAccesses_default, h]

theorem stepAccesses_unassigned {s : State} {page : Page} {op : Byte}
    (h : decode (instructionStream s) = .error (.unassigned page op)) :
    stepAccesses s = readRun s.pc (opcodePage (instructionStream s)).opcodeBytes := by
  rw [stepAccesses_default, h]
  exact List.append_nil _

theorem stepAccesses_invalidPostbyte {s : State} {pb : Byte}
    (h : decode (instructionStream s) = .error (.invalidPostbyte pb)) :
    stepAccesses s =
      readRun s.pc (opcodePage (instructionStream s)).opcodeBytes ++ readRun (afterOpcode s).pc 1 := by
  rw [stepAccesses_default, h]

end Sys2Proof.Machine
end

