-- ==== Sys2Proof/Laws/PerInstr.lean ====
section
/-! SUPPORT. Per instruction: the decoder reads back what the encoder writes. -/

namespace Sys2Proof.Laws.DecodesBack

open Sys2Proof.Machine (BeginsWith)

/-- Any stream that begins with the bytes of a well-formed instruction decodes to it. -/
def Statement (i : Instr) : Prop := i.wf = true → ∀ st, BeginsWith st (encode i) → decode st = .ok i

theorem negDirect (dd : Byte) : Statement (.negDirect dd) := fun _ _ h => decode_p1Dir (by decide) rfl h
theorem negIndexed (ix : Indexed) : Statement (.negIndexed ix) := fun w _ h => decode_p1Idx (by decide) rfl w h
theorem negExtended (ea : Word) : Statement (.negExtended ea) := fun _ _ h => decode_p1Ext (by decide) rfl h
theorem comDirect (dd : Byte) : Statement (.comDirect dd) := fun _ _ h => decode_p1Dir (by decide) rfl h
theorem comIndexed (ix : Indexed) : Statement (.comIndexed ix) := fun w _ h => decode_p1Idx (by decide) rfl w h
theorem comExtended (ea : Word) : Statement (.comExtended ea) := fun _ _ h => decode_p1Ext (by decide) rfl h
theorem lsrDirect (dd : Byte) : Statement (.lsrDirect dd) := fun _ _ h => decode_p1Dir (by decide) rfl h
theorem lsrIndexed (ix : Indexed) : Statement (.lsrIndexed ix) := fun w _ h => decode_p1Idx (by decide) rfl w h
theorem lsrExtended (ea : Word) : Statement (.lsrExtended ea) := fun _ _ h => decode_p1Ext (by decide) rfl h
theorem rorDirect (dd : Byte) : Statement (.rorDirect dd) := fun _ _ h => decode_p1Dir (by decide) rfl h
theorem rorIndexed (ix : Indexed) : Statement (.rorIndexed ix) := fun w _ h => decode_p1Idx (by decide) rfl w h
theorem rorExtended (ea : Word) : Statement (.rorExtended ea) := fun _ _ h => decode_p1Ext (by decide) rfl h
theorem asrDirect (dd : Byte) : Statement (.asrDirect dd) := fun _ _ h => decode_p1Dir (by decide) rfl h
theorem asrIndexed (ix : Indexed) : Statement (.asrIndexed ix) := fun w _ h => decode_p1Idx (by decide) rfl w h
theorem asrExtended (ea : Word) : Statement (.asrExtended ea) := fun _ _ h => decode_p1Ext (by decide) rfl h
theorem aslDirect (dd : Byte) : Statement (.aslDirect dd) := fun _ _ h => decode_p1Dir (by decide) rfl h
theorem aslIndexed (ix : Indexed) : Statement (.aslIndexed ix) := fun w _ h => decode_p1Idx (by decide) rfl w h
theorem aslExtended (ea : Word) : Statement (.aslExtended ea) := fun _ _ h => decode_p1Ext (by decide) rfl h
theorem rolDirect (dd : Byte) : Statement (.rolDirect dd) := fun _ _ h => decode_p1Dir (by decide) rfl h
theorem rolIndexed (ix : Indexed) : Statement (.rolIndexed ix) := fun w _ h => decode_p1Idx (by decide) rfl w h
theorem rolExtended (ea : Word) : Statement (.rolExtended ea) := fun _ _ h => decode_p1Ext (by decide) rfl h
theorem decDirect (dd : Byte) : Statement (.decDirect dd) := fun _ _ h => decode_p1Dir (by decide) rfl h
theorem decIndexed (ix : Indexed) : Statement (.decIndexed ix) := fun w _ h => decode_p1Idx (by decide) rfl w h
theorem decExtended (ea : Word) : Statement (.decExtended ea) := fun _ _ h => decode_p1Ext (by decide) rfl h
theorem incDirect (dd : Byte) : Statement (.incDirect dd) := fun _ _ h => decode_p1Dir (by decide) rfl h
theorem incIndexed (ix : Indexed) : Statement (.incIndexed ix) := fun w _ h => decode_p1Idx (by decide) rfl w h
theorem incExtended (ea : Word) : Statement (.incExtended ea) := fun _ _ h => decode_p1Ext (by decide) rfl h
theorem tstDirect (dd : Byte) : Statement (.tstDirect dd) := fun _ _ h => decode_p1Dir (by decide) rfl h
theorem tstIndexed (ix : Indexed) : Statement (.tstIndexed ix) := fun w _ h => decode_p1Idx (by decide) rfl w h
theorem tstExtended (ea : Word) : Statement (.tstExtended ea) := fun _ _ h => decode_p1Ext (by decide) rfl h
theorem clrDirect (dd : Byte) : Statement (.clrDirect dd) := fun _ _ h => decode_p1Dir (by decide) rfl h
theorem clrIndexed (ix : Indexed) : Statement (.clrIndexed ix) := fun w _ h => decode_p1Idx (by decide) rfl w h
theorem clrExtended (ea : Word) : Statement (.clrExtended ea) := fun _ _ h => decode_p1Ext (by decide) rfl h
theorem jmpDirect (dd : Byte) : Statement (.jmpDirect dd) := fun _ _ h => decode_p1Dir (by decide) rfl h
theorem jmpIndexed (ix : Indexed) : Statement (.jmpIndexed ix) := fun w _ h => decode_p1Idx (by decide) rfl w h
theorem jmpExtended (ea : Word) : Statement (.jmpExtended ea) := fun _ _ h => decode_p1Ext (by decide) rfl h
theorem lbrn (off : Word) : Statement (.lbrn off) := fun _ _ h => decode_p2Imm rfl h
theorem lbhi (off : Word) : Statement (.lbhi off) := fun _ _ h => decode_p2Imm rfl h
theorem lbls (off : Word) : Statement (.lbls off) := fun _ _ h => decode_p2Imm rfl h
theorem lbcc (off : Word) : Statement (.lbcc off) := fun _ _ h => decode_p2Imm rfl h
theorem lbcs (off : Word) : Statement (.lbcs off) := fun _ _ h => decode_p2Imm rfl h
theorem lbne (off : Word) : Statement (.lbne off) := fun _ _ h => decode_p2Imm rfl h
theorem lbeq (off : Word) : Statement (.lbeq off) := fun _ _ h => decode_p2Imm rfl h
theorem lbvc (off : Word) : Statement (.lbvc off) := fun _ _ h => decode_p2Imm rfl h
theorem lbvs (off : Word) : Statement (.lbvs off) := fun _ _ h => decode_p2Imm rfl h
theorem lbpl (off : Word) : Statement (.lbpl off) := fun _ _ h => decode_p2Imm rfl h
theorem lbmi (off : Word) : Statement (.lbmi off) := fun _ _ h => decode_p2Imm rfl h
theorem lbge (off : Word) : Statement (.lbge off) := fun _ _ h => decode_p2Imm rfl h
theorem lblt (off : Word) : Statement (.lblt off) := fun _ _ h => decode_p2Imm rfl h
theorem lbgt (off : Word) : Statement (.lbgt off) := fun _ _ h => decode_p2Imm rfl h
theorem lble (off : Word) : Statement (.lble off) := fun _ _ h => decode_p2Imm rfl h
theorem swi3 : Statement .swi3 := fun _ _ h => decode_p2Inh rfl h
theorem cmpdImmediate (imm : Word) : Statement (.cmpdImmediate imm) := fun _ _ h => decode_p2Imm rfl h
theorem cmpdDirect (dd : Byte) : Statement (.cmpdDirect dd) := fun _ _ h => decode_p2Dir rfl h
theorem cmpdIndexed (ix : Indexed) : Statement (.cmpdIndexed ix) := fun w _ h => decode_p2Idx rfl w h
theorem cmpdExtended (ea : Word) : Statement (.cmpdExtended ea) := fun _ _ h => decode_p2Ext rfl h
theorem cmpyImmediate (imm : Word) : Statement (.cmpyImmediate imm) := fun _ _ h => decode_p2Imm rfl h
theorem cmpyDirect (dd : Byte) : Statement (.cmpyDirect dd) := fun _ _ h => decode_p2Dir rfl h
theorem cmpyIndexed (ix : Indexed) : Statement (.cmpyIndexed ix) := fun w _ h => decode_p2Idx rfl w h
theorem cmpyExtended (ea : Word) : Statement (.cmpyExtended ea) := fun _ _ h => decode_p2Ext rfl h

end Sys2Proof.Laws.DecodesBack
end

