-- ==== Sys2Proof/Tests/Slice0.lean ====
section
/-! SUPPORT. Tests: well-formedness, decoding, one step at a time, and a witness for every statement that has hypotheses.
The expected results are those of 95_test_vectors.md (its section is named beside each group) or worked by hand from the
rule named. -/

namespace Sys2Proof.Tests

open Sys2Proof Sys2Proof.Machine

/-! ## Helpers -/

/-- Bytes stored at rising addresses. -/
def store (a : Nat) : List Byte → Memory → Memory
  | [], m => m
  | b :: bs, m => store (a + 1) bs (Memory.write m a b)

/-- An instruction stored at 0x5000 and PC there. -/
def at5000 (bs : List Byte) (s : State) : State := { s with pc := 0x5000, mem := store 0x5000 bs s.mem }

/-- What a test looks at in the state after a completed step. -/
def seen {α : Type} (o : StepOutcome) (look : State → α) : Option α :=
  match o with
  | .next t => some (look t)
  | _ => none

/-- The fault of a step that faults. -/
def faultOf : StepOutcome → Option Fault
  | .fault r => some r
  | _ => none

/-- The fault of `executeInstruction` and the PC it leaves. -/
def faultedAt : StepResult → Option (Fault × Word)
  | .faulted r s => some (r, s.pc)
  | _ => none

/-- The cycle count of a completed step. -/
def cyclesOf : StepResult → Option Nat
  | .completed _ n => some n
  | _ => none

/-- The state after reset, the start of most tests. -/
abbrev zero : State := State.reset

/-! ## Well-formedness: the one check, at its boundaries (30_encoding.md R87) -/

theorem test_wf_offset_too_high : (Instr.negIndexed (.offset5 .x 16)).wf = false := by decide
theorem test_wf_offset_too_low : (Instr.cmpyIndexed (.offset5 .s (-17))).wf = false := by decide
theorem test_wf_offset_in_range :
    (Instr.jmpIndexed (.offset5 .u 15)).wf = true ∧ (Instr.clrIndexed (.offset5 .y (-16))).wf = true := by decide

/-! ## Decoding: every opcode of 30_encoding.md R83 and R84, written out -/

/-- The Direct column of page 1. -/
theorem test_decode_pageOneDirect :
    decode (streamOf [0x00, 0x42]) = .ok (.negDirect 0x42) ∧
    decode (streamOf [0x03, 0x42]) = .ok (.comDirect 0x42) ∧
    decode (streamOf [0x04, 0x42]) = .ok (.lsrDirect 0x42) ∧
    decode (streamOf [0x06, 0x42]) = .ok (.rorDirect 0x42) ∧
    decode (streamOf [0x07, 0x42]) = .ok (.asrDirect 0x42) ∧
    decode (streamOf [0x08, 0x42]) = .ok (.aslDirect 0x42) ∧
    decode (streamOf [0x09, 0x42]) = .ok (.rolDirect 0x42) ∧
    decode (streamOf [0x0A, 0x42]) = .ok (.decDirect 0x42) ∧
    decode (streamOf [0x0C, 0x42]) = .ok (.incDirect 0x42) ∧
    decode (streamOf [0x0D, 0x42]) = .ok (.tstDirect 0x42) ∧
    decode (streamOf [0x0E, 0x42]) = .ok (.jmpDirect 0x42) ∧
    decode (streamOf [0x0F, 0x42]) = .ok (.clrDirect 0x42) := by
  refine ⟨rfl, rfl, rfl, rfl, rfl, rfl, rfl, rfl, rfl, rfl, rfl, rfl⟩

/-- The Indexed column of page 1, with postbyte 0x84: `,X`. -/
theorem test_decode_pageOneIndexed :
    decode (streamOf [0x60, 0x84]) = .ok (.negIndexed (.mode .x false .noOffset)) ∧
    decode (streamOf [0x63, 0x84]) = .ok (.comIndexed (.mode .x false .noOffset)) ∧
    decode (streamOf [0x64, 0x84]) = .ok (.lsrIndexed (.mode .x false .noOffset)) ∧
    decode (streamOf [0x66, 0x84]) = .ok (.rorIndexed (.mode .x false .noOffset)) ∧
    decode (streamOf [0x67, 0x84]) = .ok (.asrIndexed (.mode .x false .noOffset)) ∧
    decode (streamOf [0x68, 0x84]) = .ok (.aslIndexed (.mode .x false .noOffset)) ∧
    decode (streamOf [0x69, 0x84]) = .ok (.rolIndexed (.mode .x false .noOffset)) ∧
    decode (streamOf [0x6A, 0x84]) = .ok (.decIndexed (.mode .x false .noOffset)) ∧
    decode (streamOf [0x6C, 0x84]) = .ok (.incIndexed (.mode .x false .noOffset)) ∧
    decode (streamOf [0x6D, 0x84]) = .ok (.tstIndexed (.mode .x false .noOffset)) ∧
    decode (streamOf [0x6E, 0x84]) = .ok (.jmpIndexed (.mode .x false .noOffset)) ∧
    decode (streamOf [0x6F, 0x84]) = .ok (.clrIndexed (.mode .x false .noOffset)) := by
  refine ⟨rfl, rfl, rfl, rfl, rfl, rfl, rfl, rfl, rfl, rfl, rfl, rfl⟩

/-- The Extended column of page 1. -/
theorem test_decode_pageOneExtended :
    decode (streamOf [0x70, 0x12, 0x34]) = .ok (.negExtended 0x1234) ∧
    decode (streamOf [0x73, 0x12, 0x34]) = .ok (.comExtended 0x1234) ∧
    decode (streamOf [0x74, 0x12, 0x34]) = .ok (.lsrExtended 0x1234) ∧
    decode (streamOf [0x76, 0x12, 0x34]) = .ok (.rorExtended 0x1234) ∧
    decode (streamOf [0x77, 0x12, 0x34]) = .ok (.asrExtended 0x1234) ∧
    decode (streamOf [0x78, 0x12, 0x34]) = .ok (.aslExtended 0x1234) ∧
    decode (streamOf [0x79, 0x12, 0x34]) = .ok (.rolExtended 0x1234) ∧
    decode (streamOf [0x7A, 0x12, 0x34]) = .ok (.decExtended 0x1234) ∧
    decode (streamOf [0x7C, 0x12, 0x34]) = .ok (.incExtended 0x1234) ∧
    decode (streamOf [0x7D, 0x12, 0x34]) = .ok (.tstExtended 0x1234) ∧
    decode (streamOf [0x7E, 0x12, 0x34]) = .ok (.jmpExtended 0x1234) ∧
    decode (streamOf [0x7F, 0x12, 0x34]) = .ok (.clrExtended 0x1234) := by
  refine ⟨rfl, rfl, rfl, rfl, rfl, rfl, rfl, rfl, rfl, rfl, rfl, rfl⟩

/-- The long branches of page 2. -/
theorem test_decode_pageTwoBranches :
    decode (streamOf [0x10, 0x21, 0xFF, 0xF8]) = .ok (.lbrn 0xFFF8) ∧
    decode (streamOf [0x10, 0x22, 0xFF, 0xF8]) = .ok (.lbhi 0xFFF8) ∧
    decode (streamOf [0x10, 0x23, 0xFF, 0xF8]) = .ok (.lbls 0xFFF8) ∧
    decode (streamOf [0x10, 0x24, 0xFF, 0xF8]) = .ok (.lbcc 0xFFF8) ∧
    decode (streamOf [0x10, 0x25, 0xFF, 0xF8]) = .ok (.lbcs 0xFFF8) ∧
    decode (streamOf [0x10, 0x26, 0xFF, 0xF8]) = .ok (.lbne 0xFFF8) ∧
    decode (streamOf [0x10, 0x27, 0xFF, 0xF8]) = .ok (.lbeq 0xFFF8) ∧
    decode (streamOf [0x10, 0x28, 0xFF, 0xF8]) = .ok (.lbvc 0xFFF8) ∧
    decode (streamOf [0x10, 0x29, 0xFF, 0xF8]) = .ok (.lbvs 0xFFF8) ∧
    decode (streamOf [0x10, 0x2A, 0xFF, 0xF8]) = .ok (.lbpl 0xFFF8) ∧
    decode (streamOf [0x10, 0x2B, 0xFF, 0xF8]) = .ok (.lbmi 0xFFF8) ∧
    decode (streamOf [0x10, 0x2C, 0xFF, 0xF8]) = .ok (.lbge 0xFFF8) ∧
    decode (streamOf [0x10, 0x2D, 0xFF, 0xF8]) = .ok (.lblt 0xFFF8) ∧
    decode (streamOf [0x10, 0x2E, 0xFF, 0xF8]) = .ok (.lbgt 0xFFF8) ∧
    decode (streamOf [0x10, 0x2F, 0xFF, 0xF8]) = .ok (.lble 0xFFF8) := by
  refine ⟨rfl, rfl, rfl, rfl, rfl, rfl, rfl, rfl, rfl, rfl, rfl, rfl, rfl, rfl, rfl⟩

/-- The Immediate and Extended compares of page 2. -/
theorem test_decode_pageTwoWords :
    decode (streamOf [0x10, 0x83, 0x12, 0x34]) = .ok (.cmpdImmediate 0x1234) ∧
    decode (streamOf [0x10, 0x8C, 0x12, 0x34]) = .ok (.cmpyImmediate 0x1234) ∧
    decode (streamOf [0x10, 0xB3, 0x12, 0x34]) = .ok (.cmpdExtended 0x1234) ∧
    decode (streamOf [0x10, 0xBC, 0x12, 0x34]) = .ok (.cmpyExtended 0x1234) := by
  refine ⟨rfl, rfl, rfl, rfl⟩

/-- The Direct compares of page 2. -/
theorem test_decode_pageTwoDirect :
    decode (streamOf [0x10, 0x93, 0x42]) = .ok (.cmpdDirect 0x42) ∧
    decode (streamOf [0x10, 0x9C, 0x42]) = .ok (.cmpyDirect 0x42) := by
  refine ⟨rfl, rfl⟩

/-- The Indexed compares of page 2, with postbyte 0xE9: a 16-bit offset from S. -/
theorem test_decode_pageTwoIndexed :
    decode (streamOf [0x10, 0xA3, 0xE9, 0x12, 0x34]) = .ok (.cmpdIndexed (.mode .s false (.offset16 0x1234))) ∧
    decode (streamOf [0x10, 0xAC, 0xE9, 0x12, 0x34]) = .ok (.cmpyIndexed (.mode .s false (.offset16 0x1234))) := by
  refine ⟨rfl, rfl⟩

/-- SWI3. -/
theorem test_decode_pageTwoInherent :
    decode (streamOf [0x10, 0x3F]) = .ok (.swi3) := rfl

/-- Each sub-mode, register and sign of the postbyte, written out from 30_encoding.md R87 and R88. -/
theorem test_decode_postbytes :
    decodeIndexed (streamOf [0x80]) = .ok (.mode .x false .postInc1) ∧
    decodeIndexed (streamOf [0xA1]) = .ok (.mode .y false .postInc2) ∧
    decodeIndexed (streamOf [0xC2]) = .ok (.mode .u false .preDec1) ∧
    decodeIndexed (streamOf [0xE3]) = .ok (.mode .s false .preDec2) ∧
    decodeIndexed (streamOf [0x94]) = .ok (.mode .x true .noOffset) ∧
    decodeIndexed (streamOf [0x85]) = .ok (.mode .x false .accB) ∧
    decodeIndexed (streamOf [0xB6]) = .ok (.mode .y true .accA) ∧
    decodeIndexed (streamOf [0xC8, 0x80]) = .ok (.mode .u false (.offset8 0x80)) ∧
    decodeIndexed (streamOf [0xF9, 0x12, 0x34]) = .ok (.mode .s true (.offset16 0x1234)) ∧
    decodeIndexed (streamOf [0x8B]) = .ok (.mode .x false .accD) ∧
    decodeIndexed (streamOf [0x8C, 0xFE]) = .ok (.mode .x false (.pcr8 0xFE)) ∧
    decodeIndexed (streamOf [0x9D, 0x12, 0x34]) = .ok (.mode .x true (.pcr16 0x1234)) ∧
    decodeIndexed (streamOf [0x1F]) = .ok (.offset5 .x (-1)) ∧
    decodeIndexed (streamOf [0x30]) = .ok (.offset5 .y (-16)) ∧
    decodeIndexed (streamOf [0x4F]) = .ok (.offset5 .u 15) ∧
    decodeIndexed (streamOf [0x60]) = .ok (.offset5 .s 0) := by
  refine ⟨rfl, rfl, rfl, rfl, rfl, rfl, rfl, rfl, rfl, rfl, rfl, rfl, rfl, rfl, rfl, rfl⟩

/-- The rejected encodings of 95_test_vectors.md section 7. -/
theorem test_decode_rejects :
    decode (streamOf [0x12, 0x87]) = .error (.unassigned .one 0x12) ∧
    decode (streamOf [0x10, 0x20, 0x00, 0x10]) = .error (.unassigned .two 0x20) ∧
    decode (streamOf [0x60, 0x87]) = .error (.invalidPostbyte 0x87) ∧
    decode (streamOf [0x10, 0xAC, 0xEE]) = .error (.invalidPostbyte 0xEE) := by
  refine ⟨rfl, rfl, rfl, rfl⟩

/-- Opcode-table numbers of one and of two opcode bytes (30_encoding.md R96). -/
theorem test_decodeTableWord :
    decodeTableWord 8 0x7F = some (.clrExtended 0x0000) ∧ decodeTableWord 16 0x103F = some .swi3 ∧
    decodeTableWord 16 0x10BC = some (.cmpyExtended 0x0000) ∧ decodeTableWord 8 0x12 = none := by
  refine ⟨rfl, rfl, rfl, rfl⟩

/-! ## One step (95_test_vectors.md sections 2, 4, 5, 6, 7) -/

theorem test_neg :
    seen (step (at5000 [0x00, 0x40] { zero with dp := 0x20, cc := 0x01, mem := [(0x2040, 0x01)] }))
        (fun t => (t.pc, t.cc, t.readByte 0x2040)) = some (0x5002, 0x08, 0xFF) := by decide

theorem test_com :
    seen (step (at5000 [0x63, 0x84] { zero with x := 0x3000, cc := 0x02, mem := [(0x3000, 0x55)] }))
        (fun t => (t.pc, t.cc, t.readByte 0x3000)) = some (0x5002, 0x09, 0xAA) := by decide

theorem test_lsr :
    seen (step (at5000 [0x74, 0x20, 0x00] { zero with cc := 0x08, mem := [(0x2000, 0x03)] }))
        (fun t => (t.pc, t.cc, t.readByte 0x2000)) = some (0x5003, 0x01, 0x01) := by decide

theorem test_ror :
    seen (step (at5000 [0x66, 0xA0] { zero with y := 0x3000, cc := 0x01 }))
        (fun t => (t.pc, t.y, t.cc, t.readByte 0x3000)) = some (0x5002, 0x3001, 0x08, 0x80) := by decide

theorem test_asr :
    seen (step (at5000 [0x67, 0xC3] { zero with u := 0x4000, mem := [(0x3FFE, 0x81)] }))
        (fun t => (t.u, t.cc, t.readByte 0x3FFE)) = some (0x3FFE, 0x09, 0xC0) := by decide

theorem test_asl :
    seen (step (at5000 [0x68, 0x1F] { zero with x := 0x3000, mem := [(0x2FFF, 0x80)] }))
        (fun t => (t.x, t.cc, t.readByte 0x2FFF)) = some (0x3000, 0x07, 0x00) := by decide

theorem test_rol :
    seen (step (at5000 [0x69, 0x88, 0x80] { zero with x := 0x3000, mem := [(0x2F80, 0xFF)] }))
        (fun t => (t.pc, t.cc, t.readByte 0x2F80)) = some (0x5003, 0x09, 0xFE) := by decide

theorem test_dec :
    seen (step (at5000 [0x6A, 0x89, 0x10, 0x00] { zero with x := 0x3000, cc := 0x01, mem := [(0x4000, 0x01)] }))
        (fun t => (t.pc, t.cc, t.readByte 0x4000)) = some (0x5004, 0x05, 0x00) := by decide

theorem test_dec_indirect_preDec :
    seen (step (at5000 [0x6A, 0xF2] { zero with s := 0x8000, mem := [(0x7FFF, 0x80)] }))
        (fun t => (t.s, t.cc, t.readByte 0x8000)) = some (0x8000, 0x0A, 0xFF) := by decide

theorem test_inc_accB :
    seen (step (at5000 [0x6C, 0x85] { zero with x := 0x3000, b := 0xFE, mem := [(0x2FFE, 0xFF)] }))
        (fun t => (t.pc, t.cc, t.readByte 0x2FFE)) = some (0x5002, 0x06, 0x00) := by decide

theorem test_inc_own_byte :
    seen (step (at5000 [0x7C, 0x50, 0x01] zero))
        (fun t => (t.pc, t.cc, t.readByte 0x5001)) = some (0x5003, 0x00, 0x51) := by decide

theorem test_tst_accD :
    seen (step (at5000 [0x6D, 0x8B] { zero with x := 0xF000, a := 0x12, b := 0x34, cc := 0x0B }))
        (fun t => (t.pc, t.cc)) = some (0x5002, 0x05) := by decide

theorem test_tst_wrap :
    seen (step (at5000 [0x6D, 0x80] { zero with x := 0xFFFF, mem := [(0xFFFF, 0x80)] }))
        (fun t => (t.x, t.cc, t.readByte 0xFFFF)) = some (0x0000, 0x08, 0x80) := by decide

theorem test_clr_indirect :
    seen (step (at5000 [0x6F, 0x91] { zero with x := 0x3000, mem := [(0x2010, 0x77), (0x3000, 0x20), (0x3001, 0x10)] }))
        (fun t => (t.x, t.cc, t.readByte 0x2010)) = some (0x3000, 0x04, 0x00) := by decide

theorem test_jmp_direct :
    seen (step (at5000 [0x0E, 0x34] { zero with dp := 0x12 }))
        (fun t => (t.pc, t.cc)) = some (0x1234, 0x00) := by decide

/-- The default PCR_BASE (assumption log entry 3). -/
theorem test_jmp_pcr :
    seen (step (at5000 [0x6E, 0x8C, 0xFE] zero))
        (fun t => t.pc) = some 0x4FFF := by decide

theorem test_lbrn :
    seen (step (at5000 [0x10, 0x21, 0x12, 0x34] zero))
        (fun t => t.pc) = some 0x5004 := by decide

theorem test_lbeq_to_itself :
    seen (step (at5000 [0x10, 0x27, 0xFF, 0xFC] { zero with cc := 0x04 }))
        (fun t => (t.pc, t.cc)) = some (0x5000, 0x04) := by decide

theorem test_lbcs_back :
    seen (step (at5000 [0x10, 0x25, 0x80, 0x00] { zero with cc := 0x01 }))
        (fun t => t.pc) = some 0xD004 := by decide

theorem test_lbcc_forward :
    seen (step (at5000 [0x10, 0x24, 0x7F, 0xFF] zero))
        (fun t => t.pc) = some 0xD003 := by decide

theorem test_lble_not_taken :
    seen (step (at5000 [0x10, 0x2F, 0x10, 0x00] { zero with cc := 0xF0 }))
        (fun t => (t.pc, t.cc)) = some (0x5004, 0xF0) := by decide

/-- A branch across the top of memory. -/
theorem test_lbhi_wraps :
    seen (step { zero with pc := 0xFFFE, mem := [(0x0001, 0x02), (0xFFFE, 0x10), (0xFFFF, 0x22)] }) (fun t => t.pc) =
      some 0x0004 := by decide

/-- The truth table of 44_jmp_lbranch.md R257: bit k of a row says whether the branch is taken for CC[3:0] = k. -/
theorem test_branch_truth_table :
    ([neverCondition, higherCondition, lowerOrSameCondition, carryClearCondition, carrySetCondition, notEqualCondition,
      equalCondition, overflowClearCondition, overflowSetCondition, plusCondition, minusCondition,
      greaterOrEqualCondition, lessThanCondition, greaterThanCondition, lessOrEqualCondition].map fun condition =>
        (List.range 16).map fun k => condition (BitVec.ofNat 8 k)) =
    ([0x0000, 0x0505, 0xFAFA, 0x5555, 0xAAAA, 0x0F0F, 0xF0F0, 0x3333,
      0xCCCC, 0x00FF, 0xFF00, 0xCC33, 0x33CC, 0x0C03, 0xF3FC].map fun (row : Nat) => (List.range 16).map fun k => row.testBit k) := by
  decide

theorem test_cmpd_immediate :
    seen (step (at5000 [0x10, 0x83, 0x12, 0x34] { zero with a := 0x12, b := 0x34 }))
        (fun t => (t.pc, t.cc)) = some (0x5004, 0x07) := by decide

theorem test_cmpd_direct :
    seen (step (at5000 [0x10, 0x93, 0x40] { zero with a := 0x12, b := 0x34, dp := 0x20, mem := [(0x2040, 0x12), (0x2041, 0x35)] }))
        (fun t => (t.pc, t.cc)) = some (0x5003, 0x08) := by decide

theorem test_cmpd_extended_zero :
    seen (step (at5000 [0x10, 0xB3, 0x30, 0x00] { zero with a := 0x80, cc := 0x03 }))
        (fun t => (t.pc, t.cc)) = some (0x5004, 0x08) := by decide

theorem test_cmpd_pcr :
    seen (step (at5000 [0x10, 0xA3, 0x8D, 0x00, 0x10] { zero with b := 0x01, mem := [(0x5013, 0x01)] }))
        (fun t => (t.pc, t.cc)) = some (0x5005, 0x07) := by decide

theorem test_cmpy_written_back :
    seen (step (at5000 [0x10, 0xAC, 0xA1] { zero with y := 0x2000, mem := [(0x2000, 0x20), (0x2001, 0x02)] }))
        (fun t => (t.y, t.cc)) = some (0x2002, 0x07) := by decide

theorem test_cmpy_extended :
    seen (step (at5000 [0x10, 0xBC, 0x30, 0x00] { zero with y := 0x0006, mem := [(0x3001, 0x05)] }))
        (fun t => (t.pc, t.cc)) = some (0x5004, 0x03) := by decide

/-- V1 of section 6, the frame from its lowest byte up. -/
theorem test_swi3 :
    seen (step { a := 0x11, b := 0x22, dp := 0x33, cc := 0x05, pc := 0x1000, x := 0x4455, y := 0x6677, u := 0x8899,
                 s := 0x8000, mem := [(0x1000, 0x10), (0x1001, 0x3F), (0xFFF2, 0x90)] })
      (fun t => (t.pc, t.s, t.cc, (List.range 12).map fun k => Memory.read t.mem (0x7FF4 + k))) =
    some (0x9000, 0x7FF4, 0x85,
      [0x85, 0x11, 0x22, 0x33, 0x44, 0x55, 0x66, 0x77, 0x88, 0x99, 0x10, 0x02]) := by decide

/-- V4 of section 6: the frame covers the vector, and PC is read after the pushes. -/
theorem test_swi3_frame_over_vector :
    seen (step { a := 0xAA, b := 0xBB, dp := 0xCC, cc := 0x00, pc := 0xFFEE, x := 0x1234, y := 0x2222, u := 0x3333,
                 s := 0xFFFA, mem := [(0xFFEE, 0x10), (0xFFEF, 0x3F), (0xFFF2, 0x90)] })
      (fun t => (t.pc, t.s, t.cc)) = some (0x1234, 0xFFEE, 0x80) := by decide

/-- The faults of section 7, with the PC each leaves. -/
theorem test_faults :
    faultedAt (executeInstruction (at5000 [0x12, 0x87] zero)) = some (.unimplementedOpcode .one 0x12, 0x5001) ∧
    faultedAt (executeInstruction (at5000 [0x10, 0x10, 0x3F] zero)) = some (.unimplementedOpcode .two 0x10, 0x5002) ∧
    faultedAt (executeInstruction (at5000 [0x60, 0x87] zero)) = some (.invalidAddressingMode 0x87, 0x5001) ∧
    faultedAt (executeInstruction (at5000 [0x10, 0xAC, 0xEE] zero)) = some (.invalidAddressingMode 0xEE, 0x5002) := by
  decide

/-- Cycle counts: `DEC $1000,X`, `JMP ,X`, LBNE taken and not, SWI3, CMPD PC-relative (sections 2, 4, 5, 6). -/
theorem test_cycles :
    cyclesOf (executeInstruction (at5000 [0x6A, 0x89, 0x10, 0x00] zero)) = some 7 ∧
    cyclesOf (executeInstruction (at5000 [0x6E, 0x84] zero)) = some 2 ∧
    cyclesOf (executeInstruction (at5000 [0x10, 0x26, 0x00, 0x10] zero)) = some 6 ∧
    cyclesOf (executeInstruction (at5000 [0x10, 0x26, 0x00, 0x10] { zero with cc := 0x04 })) = some 5 ∧
    cyclesOf (executeInstruction (at5000 [0x10, 0x3F] zero)) = some 19 ∧
    cyclesOf (executeInstruction (at5000 [0x10, 0xA3, 0x8D, 0x00, 0x10] zero)) = some 9 := by decide

/-- The other values of NEG_C_MODE (section 2), and of PCR_BASE (section 3: `8D 10 00` with P = 0x1001). -/
theorem test_other_parameters :
    (negByte .borrow 0x80 0xF3).2 = 0xFB ∧ (negByte .unchanged 0x00 0xF3).2 = 0xF5 ∧
    (resolveIndexed .afterPostbyte (.mode .x false (.pcr8 0x10)) { zero with pc := 0x1001 }).1 = ⟨2, 0x1012⟩ ∧
    (resolveIndexed .nextInstruction (.mode .x false (.pcr16 0x1000)) { zero with pc := 0x1001 }).1 = ⟨3, 0x2004⟩ := by
  decide

/-- Whole steps under other parameters: SWI3 through 0xFFF4 (section 6, V2), an unassigned opcode under nop (section 7),
NEG of 0x80 under borrow (section 2), and a JMP whose PC-relative base is the next instruction (section 3). -/
theorem test_stepWith :
    seen (stepWith { defaultParameters with swi3Vector := 0xFFF4 }
      (at5000 [0x10, 0x3F] { zero with s := 0x8000, mem := [(0xFFF2, 0x90), (0xFFF4, 0xA0)] }))
      (fun t => (t.pc, t.s, t.cc)) = some (0xA000, 0x7FF4, 0x80) ∧
    executeInstructionWith { defaultParameters with unassignedPolicy := .nop } (at5000 [0x12] { zero with cc := 0x55 }) =
      .completed { at5000 [0x12] { zero with cc := 0x55 } with pc := 0x5001 } 0 ∧
    seen (stepWith { defaultParameters with negCMode := .borrow }
      (at5000 [0x00, 0x42] { zero with cc := 0xF2, mem := [(0x0042, 0x80)] })) (fun t => t.cc) = some 0xFB ∧
    seen (stepWith { defaultParameters with pcrBase := .nextInstruction } (at5000 [0x6E, 0x8C, 0x10] zero))
      (fun t => t.pc) = some 0x5013 := by decide

/-- A map in which NEG, Direct has the byte 0x01 and 0x00 has no instruction (00_scope.md R6). -/
def movedNeg : OpcodeMap
  | .one => ⟨0x01#8, .direct .negDirect⟩ :: (opcodeMap .one).drop 1
  | .two => opcodeMap .two

/-- The opcode map is an argument of the decoder. -/
theorem test_opcodeMap :
    decode (streamOf [0x01, 0x42]) movedNeg = .ok (.negDirect 0x42) ∧
    decode (streamOf [0x00, 0x42]) movedNeg = .error (.unassigned .one 0x00) := by decide

/-- An instruction placed for the next step is the one it runs (70_reset_and_hazards.md R341): `CLR $0000`. -/
theorem test_withFetchWord :
    seen (step (State.reset.withFetchWord 8 0x7F)) (fun t => (t.pc, t.cc)) = some (0x0003, 0x04) := by decide

/-- The accesses of `INC $5001` at 0x5000, in order (20_memory.md R65). -/
theorem test_accesses :
    stepAccesses (at5000 [0x7C, 0x50, 0x01] zero) =
      [.read 0x5000, .read 0x5001, .read 0x5002, .read 0x5001, .write 0x5001 0x51] := by decide

/-- The accesses of `CMPY [$1234,S]` with the pointer 0x2000 there, and of SWI3 with S = 0x8000 (20_memory.md R65). -/
theorem test_accesses_pointer_and_frame :
    stepAccesses (at5000 [0x10, 0xAC, 0xF9, 0x12, 0x34] { zero with mem := [(0x1234, 0x20)] }) =
      [.read 0x5000, .read 0x5001, .read 0x5002, .read 0x5003, .read 0x5004, .read 0x1234, .read 0x1235, .read 0x2000,
       .read 0x2001] ∧
    stepAccesses (at5000 [0x10, 0x3F]
      { zero with a := 0x11, b := 0x22, dp := 0x33, x := 0x4455, y := 0x6677, u := 0x8899, s := 0x8000, cc := 0x05 }) =
      [.read 0x5000, .read 0x5001, .write 0x7FFF 0x02, .write 0x7FFE 0x50, .write 0x7FFD 0x99, .write 0x7FFC 0x88,
       .write 0x7FFB 0x77, .write 0x7FFA 0x66, .write 0x7FF9 0x55, .write 0x7FF8 0x44, .write 0x7FF7 0x33,
       .write 0x7FF6 0x22, .write 0x7FF5 0x11, .write 0x7FF4 0x85, .read 0xFFF2, .read 0xFFF3] := by decide

/-! ## Witnesses: states and operands that meet the hypotheses of the statements -/

/-- `CMPY [$1234,S]` at 0x5000. -/
abbrev compareState : State := at5000 [0x10, 0xAC, 0xF9, 0x12, 0x34] zero

/-- `NEG ,Y+` at 0x5000, Y = 0xFFFF. -/
abbrev storeState : State := at5000 [0x60, 0xA0] { zero with y := 0xFFFF, mem := [(0xFFFF, 0x01), (524287, 0x02)] }

/-- EncodedInstructionDecodesBack and DecodedStreamBeginsWithEncoding. -/
theorem witness_encoding :
    (Instr.cmpyIndexed (.mode .s true (.offset16 0x1234))).wf = true ∧
    BeginsWith (streamOf [0x10, 0xAC, 0xF9, 0x12, 0x34]) (encode (.cmpyIndexed (.mode .s true (.offset16 0x1234)))) ∧
    decode (streamOf [0x10, 0xAC, 0xF9, 0x12, 0x34]) = .ok (.cmpyIndexed (.mode .s true (.offset16 0x1234))) := by
  refine ⟨rfl, ?_, rfl⟩
  unfold BeginsWith
  decide

/-- The same at both ends of the five-bit offset. -/
theorem witness_encoding_offset5 :
    (Instr.negIndexed (.offset5 .u (-16))).wf = true ∧ (Instr.negIndexed (.offset5 .u 15)).wf = true ∧
    BeginsWith (streamOf [0x60, 0x50]) (encode (.negIndexed (.offset5 .u (-16)))) ∧
    BeginsWith (streamOf [0x60, 0x4F]) (encode (.negIndexed (.offset5 .u 15))) := by
  refine ⟨rfl, rfl, ?_, ?_⟩ <;> unfold BeginsWith <;> decide

/-- UnassignedOpcodesAreRejected and InvalidPostbytesAreRejected, the right sides, at boundary values. -/
theorem witness_rejected :
    (opcodePage (streamOf [0x10, 0x30]) = .two ∧ opcodeByte (streamOf [0x10, 0x30]) = 0x30 ∧ ¬ AssignedOpcode .two 0x30) ∧
    (opcodePage (streamOf [0x11]) = .one ∧ opcodeByte (streamOf [0x11]) = 0x11 ∧ ¬ AssignedOpcode .one 0x11) ∧
    (IndexedOpcode .one 0x6F ∧ InvalidPostbyte 0x87) ∧ (IndexedOpcode .two 0xAC ∧ InvalidPostbyte 0xFF) := by
  unfold AssignedOpcode IndexedOpcode InvalidPostbyte
  decide

/-- StepExecutesDecodedInstruction, PcMovesPastInstruction and CompletedStepsReturnCycleCounts. -/
theorem witness_decodedStep :
    decode (instructionStream compareState) = .ok (.cmpyIndexed (.mode .s true (.offset16 0x1234))) ∧
    replacesPc (.cmpyIndexed (.mode .s true (.offset16 0x1234))) = false := by
  decide

/-- CompletedStepsReturnCycleCounts: an instruction of each clause decodes, the branch both taken and not. -/
theorem witness_cycleClauses :
    decode (instructionStream (at5000 [0x0F, 0x42] zero)) = .ok (.clrDirect 0x42) ∧
    decode (instructionStream storeState) = .ok (.negIndexed (.mode .y false .postInc1)) ∧
    decode (instructionStream (at5000 [0x7D, 0x12, 0x34] zero)) = .ok (.tstExtended 0x1234) ∧
    decode (instructionStream (at5000 [0x0E, 0x42] zero)) = .ok (.jmpDirect 0x42) ∧
    decode (instructionStream (at5000 [0x6E, 0x84] zero)) = .ok (.jmpIndexed (.mode .x false .noOffset)) ∧
    decode (instructionStream (at5000 [0x7E, 0x12, 0x34] zero)) = .ok (.jmpExtended 0x1234) ∧
    decode (instructionStream (at5000 [0x10, 0x2E, 0x00, 0x10] zero)) = .ok (.lbgt 0x0010) ∧
    decode (instructionStream (at5000 [0x10, 0x3F] zero)) = .ok .swi3 ∧
    decode (instructionStream (at5000 [0x10, 0x83, 0x12, 0x34] zero)) = .ok (.cmpdImmediate 0x1234) ∧
    decode (instructionStream (at5000 [0x10, 0x9C, 0x42] zero)) = .ok (.cmpyDirect 0x42) ∧
    decode (instructionStream (at5000 [0x10, 0xB3, 0x12, 0x34] zero)) = .ok (.cmpdExtended 0x1234) := by
  decide

/-- CompletedStepsReturnCycleCounts, LongBranchTargets: the conditions of LBGT with Z clear and with Z set. -/
theorem witness_branchConditions :
    (Instr.lbgt 0x0010, true) ∈ branchConditions zero 0x0010 ∧
    (Instr.lbgt 0x8000, false) ∈ branchConditions { zero with cc := 0x04 } 0x8000 ∧
    (Instr.lbrn 0xFFFF, false) ∈ branchConditions zero 0xFFFF := by
  decide

/-- FaultLeavesAllButPc and UnassignedOpcodeOutcome. -/
theorem witness_fault :
    executeInstruction (at5000 [0x10, 0x20] zero) =
      .faulted (.unimplementedOpcode .two 0x20) { at5000 [0x10, 0x20] zero with pc := 0x5002 } ∧
    executeInstruction (at5000 [0x6F, 0x9A] zero) =
      .faulted (.invalidAddressingMode 0x9A) { at5000 [0x6F, 0x9A] zero with pc := 0x5001 } ∧
    decode (instructionStream (at5000 [0x10, 0x20] zero)) = .error (.unassigned .two 0x20) := by
  decide

/-- PageDispatchIsOneLevel: a stream for each clause. -/
theorem witness_pageBytes :
    streamOf [0x10, 0x3F] 0 = 0x10#8 ∧ (streamOf [0x10, 0x10] 0 = 0x10#8 ∧ streamOf [0x10, 0x10] 1 = 0x10#8) ∧
    streamOf [0x11, 0x3F] 0 = 0x11#8 := by
  decide

/-- AccessListGivesMemoryAfterStep, StepKeepsMemoryCanonical, StepsNeverWriteAccumulatorsOrDp: a step that stores, from a
canonical memory with a byte at the last index of the image. -/
theorem witness_storingStep :
    storeState.Inv ∧ seen (step storeState) (fun t => (t.y, t.mem)) =
      some (0x0000, [(0x5000, 0x60), (0x5001, 0xA0), (0xFFFF, 0xFF), (524287, 0x02)]) := by
  unfold State.Inv
  decide

/-- AccessListGivesMemoryAfterStep: a state of each clause; the step with a pointer, SWI3, both faults. -/
theorem witness_accessClauses :
    decode (instructionStream compareState) = .ok (.cmpyIndexed (.mode .s true (.offset16 0x1234))) ∧
    decode (instructionStream (at5000 [0x10, 0x3F] zero)) = .ok .swi3 ∧
    decode (instructionStream (at5000 [0x10, 0x10] zero)) = .error (.unassigned .two 0x10) ∧
    opcodePage (instructionStream (at5000 [0x10, 0x10] zero)) = .two ∧
    decode (instructionStream (at5000 [0x6F, 0x9A] zero)) = .error (.invalidPostbyte 0x9A) := by decide

/-- ByteWrittenReadsBack: two addresses, and an index above 16 bits. -/
theorem witness_addresses : (0xFFFF : Word) ≠ 0x0000 ∧ 65536 ≠ (0x0000 : Word).toNat := by decide

/-- CanonicalMemoriesWithEqualBytesAreEqual: one memory reached by writes in two orders. -/
theorem witness_canonicalMemories :
    Memory.wf (Memory.write (Memory.write [] 0 0x01) 524287 0x02) = true ∧
    Memory.wf (Memory.write (Memory.write [(0, 0x03)] 524287 0x02) 0 0x01) = true ∧
    ∀ i, Memory.read (Memory.write (Memory.write [] 0 0x01) 524287 0x02) i =
      Memory.read (Memory.write (Memory.write [(0, 0x03)] 524287 0x02) 0 0x01) i :=
  ⟨by decide, by decide, fun _ => rfl⟩

/-- StepsIgnoreMemoryAbove64K: two states that differ at index 65536 only, and both complete a step. -/
theorem witness_above64K :
    (∀ i, i < 65536 → Memory.read { storeState with mem := Memory.write storeState.mem 65536 0x55 }.mem i =
      Memory.read storeState.mem i) ∧
    Memory.read { storeState with mem := Memory.write storeState.mem 65536 0x55 }.mem 65536 ≠
      Memory.read storeState.mem 65536 ∧
    (seen (step storeState) (fun t => t.pc)) = some 0x5002 ∧
    faultOf (step (at5000 [0x12] zero)) = some (.unimplementedOpcode .one 0x12) := by
  refine ⟨fun i hi => ?_, by decide, by decide, by decide⟩
  exact Memory.read_write_other storeState.mem 0x55 (Nat.ne_of_lt hi)

/-- HostAccessOfMemory: the two boundary indexes of each clause. -/
theorem witness_hostIndexes :
    (524287 < memSize ∧ ¬ 524288 < memSize) ∧ (524286 + 1 < memSize ∧ memSize ≤ 524287 + 1) ∧ memSize ≤ 524288 := by
  decide

/-- PlatformRunsKeepMemoryCanonical: a host write at the last index, then a step that stores. -/
theorem witness_platformRun :
    storeState.Inv ∧ seen (platformRun [.host (.writeByte 524287 0x77), .step] storeState) (fun t => t.pc) = some 0x5002 := by
  unfold State.Inv
  decide

/-- BaseRegistersChangeOnlyByAutoModes: an indirect auto mode does not modify Y, and neither does one of another
register; SWI3 is no exception for U. -/
theorem witness_notAutoModified :
    ¬ AutoModifies (.negIndexed (.mode .y true .postInc1)) .y ∧ ¬ AutoModifies (.negIndexed (.mode .y false .postInc1)) .x ∧
    ¬ AutoModifies .swi3 .u ∧ ¬ (BaseReg.u = .s ∧ Instr.swi3 = .swi3) := by
  refine ⟨?_, ?_, ?_, by decide⟩
  · rintro ⟨m, h, -⟩; cases h
  · rintro ⟨m, h, -⟩; cases h
  · rintro ⟨m, h, -⟩; cases h

/-- BaseRegistersChangeOnlyByAutoModes, MaskFlagsChangeOnlyBySwi3: those instructions answer a next state. -/
theorem witness_execNext :
    seen (exec (.negIndexed (.mode .y true .postInc1)) storeState) (fun t => t.y) = some 0xFFFF ∧
    seen (exec .swi3 storeState) (fun t => (t.u, t.s, t.cc)) = some (0x0000, 0xFFF4, 0x80) := by
  decide

/-- MaskFlagsHaveNoEffect: CC 0xF4 and 0x04, and a branch on Z that both take. -/
theorem witness_maskFlags :
    Instr.lbeq 0x0010 ≠ .swi3 ∧
    { zero with cc := 0xF4 } = State.setCc { zero with cc := 0x04 } { zero with cc := 0xF4 : State }.cc ∧
    (∀ f, f ∈ [Flag.C, .V, .Z, .N] → State.flag { zero with cc := 0xF4 } f = State.flag { zero with cc := 0x04 } f) ∧
    seen (exec (.lbeq 0x0010) { zero with cc := 0x04 }) (fun t => t.pc) = some 0x0012 := by
  decide

/-- FlagSettersWriteOneBit and HostMutatorsAndPredicates: two different flags. -/
theorem witness_flags : Flag.E ≠ .C := by decide

/-- AutoSubModesStepTheBaseRegister: each entry, from X = 0x0000 and from X = 0xFFFF, where the register wraps. -/
theorem witness_autoSubModes :
    (resolveIndexed .entry (.mode .x false .postInc1) { zero with x := 0xFFFF }).2.x = 0x0000 ∧
    (resolveIndexed .entry (.mode .x false .postInc2) { zero with x := 0xFFFF }).2.x = 0x0001 ∧
    (resolveIndexed .entry (.mode .x false .preDec1) zero).2.x = 0xFFFF ∧
    (resolveIndexed .entry (.mode .x false .preDec2) zero).2.x = 0xFFFE ∧
    (SubMode.preDec2, (0 + 65534) % 65536, (0 + 65534) % 65536) ∈
      [(SubMode.postInc1, 0, (0 + 1) % 65536), (.postInc2, 0, (0 + 2) % 65536),
       (.preDec1, (0 + 65535) % 65536, (0 + 65535) % 65536), (.preDec2, (0 + 65534) % 65536, (0 + 65534) % 65536)] := by
  decide

/-- OffsetSubModeAddresses and PcRelativeAddresses: the six and the two sub-modes at section 3's register values. -/
theorem witness_offsetSubModes :
    ([.noOffset, .accB, .accA, .offset8 0x80, .offset16 0xFFFE, .accD, .pcr8 0xFE, .pcr16 0xFFFF].map fun m =>
      (resolveIndexed .entry (.mode .x false m) { zero with x := 0x3000, a := 0x80, b := 0x7F, pc := 0x1001 }).1.value) =
    [0x3000, 0x307F, 0x2F80, 0x2F80, 0x2FFE, 0xB07F, 0x0FFF, 0x1000] := by
  decide

/-- ComplementaryBranches: a pair and an offset that is not 0. -/
theorem witness_complementary :
    (0x0001 : Word) ≠ 0#16 ∧ (Instr.lbgt 0x0001, Instr.lble 0x0001) ∈
      [(Instr.lbhi 0x0001, Instr.lbls 0x0001), (.lbge 0x0001, .lblt 0x0001), (.lbgt 0x0001, .lble 0x0001)] := by
  decide

/-- The parameters that differ from the defaults in every value. -/
def otherParameters : Parameters :=
  { memSize := 1048576, opcodeMap := movedNeg, swi3Vector := 0xFFF4, negCMode := .borrow, unassignedPolicy := .nop,
    pcrBase := .nextInstruction, cmp16Cycles := ⟨4, 6, 5, 7, by decide, by decide, by decide⟩ }

/-- StepUnderEveryParameter: the defaults are legal, and so are values that differ from all of them. -/
theorem witness_legalParameters : defaultParameters.Legal ∧ otherParameters.Legal := by
  constructor
  · exact ⟨by decide, fun page => rfl, fun page => by cases page <;> decide, by decide⟩
  · exact ⟨by decide, fun page => by cases page <;> rfl, fun page => by cases page <;> decide, by decide⟩

/-- StepUnderEveryParameter: a row of the map, a decoded instruction and an unassigned opcode under these values, and a
step from a canonical memory with a byte at index 1048575. -/
theorem witness_otherParameters :
    (otherParameters.opcodeMap .two).head?.map OpcodeRow.opcode = some 0x21 ∧
    decode (instructionStream (at5000 [0x01, 0x42] zero)) otherParameters.opcodeMap = .ok (.negDirect 0x42) ∧
    decode (instructionStream (at5000 [0x00, 0x42] zero)) otherParameters.opcodeMap = .error (.unassigned .one 0x00) ∧
    Memory.wf [(1048575, 0x01)] otherParameters.memSize = true ∧
    seen (stepWith otherParameters (at5000 [0x01, 0x42] { zero with mem := [(1048575, 0x01)] })) (fun t => t.pc) =
      some 0x5002 := by
  decide

/-- StepUnderEveryParameter: under these values an unassigned opcode returns the count 0, and CMPD, Immediate the count
4. -/
theorem witness_zeroCycles :
    otherParameters.unassignedPolicy = .nop ∧
    cyclesOf (executeInstructionWith otherParameters (at5000 [0x00, 0x42] zero)) = some 0 ∧
    cyclesOf (executeInstructionWith otherParameters (at5000 [0x10, 0x83, 0x12, 0x34] zero)) = some 4 := by
  decide

/-- StepUnderEveryParameter: COM depends on no parameter, and NEG with a PC-relative operand on two. -/
theorem witness_parameterUse :
    ¬ IsNeg (.comDirect 0x42) ∧ ¬ PcRelative (.comDirect 0x42) ∧ Instr.comDirect 0x42 ≠ .swi3 ∧
    IsNeg (.negIndexed (.mode .x true (.pcr8 0x10))) ∧ PcRelative (.negIndexed (.mode .x true (.pcr8 0x10))) := by
  refine ⟨?_, ?_, by decide, .inr (.inl ⟨_, rfl⟩), ⟨_, _, _, rfl, .inl ⟨_, rfl⟩⟩⟩
  · rintro (⟨_, h⟩ | ⟨_, h⟩ | ⟨_, h⟩) <;> cases h
  · rintro ⟨_, _, _, h, -⟩; cases h

end Sys2Proof.Tests
end

section
/-! The machine under every value of the parameters (00_scope.md R6): what executeInstruction does by what the stream
decodes to, and the forms of the rules that name a parameter. -/

namespace Sys2Proof.Machine

/-! ## One call of executeInstruction, by what the stream decodes to -/

/-- An unassigned opcode takes UNASSIGNED_POLICY (42_engine.md R186). -/
theorem executeInstructionWith_of_unassigned {p : Parameters} {s : State} {page : Page} {op : Byte}
    (h : decode (instructionStream s) p.opcodeMap = .error (.unassigned page op)) :
    executeInstructionWith p s = unassignedOutcome p.unassignedPolicy page op (afterOpcode s) := by
  simp only [executeInstructionWith, executeUnder, h]

/-- An invalid postbyte faults, whatever the parameters are (40_addressing.md R128). -/
theorem executeInstructionWith_of_invalidPostbyte {p : Parameters} {s : State} {pb : Byte}
    (h : decode (instructionStream s) p.opcodeMap = .error (.invalidPostbyte pb)) :
    executeInstructionWith p s = .faulted (.invalidAddressingMode pb) (afterOpcode s) := by
  simp only [executeInstructionWith, executeUnder, h]

/-- A call that completes ran a decoded instruction, or passed over an unassigned opcode under nop with the count 0. -/
theorem executeInstructionWith_completed {p : Parameters} {s t : State} {n : Nat}
    (h : executeInstructionWith p s = .completed t n) :
    (∃ i, decode (instructionStream s) p.opcodeMap = .ok i ∧ n = cycleCount p.cmp16Cycles i (afterOpcode s)) ∨
    (p.unassignedPolicy = .nop ∧ n = 0 ∧
      ∃ page op, decode (instructionStream s) p.opcodeMap = .error (.unassigned page op)) := by
  cases hd : decode (instructionStream s) p.opcodeMap with
  | ok i =>
    obtain ⟨u, -, -, hu⟩ := executeInstructionWith_of_decode hd
    rw [hu] at h
    cases h
    exact .inl ⟨i, rfl, rfl⟩
  | error r =>
    cases r with
    | unassigned page op =>
      rw [executeInstructionWith_of_unassigned hd] at h
      cases hp : p.unassignedPolicy with
      | fault => rw [hp] at h; cases h
      | nop => rw [hp] at h; cases h; exact .inr ⟨rfl, rfl, page, op, rfl⟩
    | invalidPostbyte pb => rw [executeInstructionWith_of_invalidPostbyte hd] at h; cases h

/-- The count 0 stands for an unassigned opcode under `nop` and for nothing else (60_exceptions.md R321). -/
theorem completed_zero_iff {p : Parameters} {s t : State} {n : Nat} (h : executeInstructionWith p s = .completed t n) :
    n = 0 ↔ p.unassignedPolicy = .nop ∧
      ∃ page op, decode (instructionStream s) p.opcodeMap = .error (.unassigned page op) := by
  rcases executeInstructionWith_completed h with ⟨i, hd, rfl⟩ | ⟨hp, rfl, hd⟩
  · have hpos : 0 < cycleCount p.cmp16Cycles i (afterOpcode s) := cycleCount_pos _ i _
    refine ⟨fun h0 => absurd h0 hpos.ne', ?_⟩
    rintro ⟨-, page, op, he⟩
    rw [hd] at he
    cases he
  · exact ⟨fun _ => ⟨hp, hd⟩, fun _ => rfl⟩

/-- A step keeps the canonical form of every image that holds the 16-bit addresses, under every parameter value: an
instruction keeps it, and passing over an opcode writes no byte. -/
theorem stepWith_keeps_wf {p : Parameters} {s t : State} {size : Nat} (hsize : 65536 ≤ size)
    (hs : Memory.wf s.mem size = true) (h : stepWith p s = .next t) : Memory.wf t.mem size = true := by
  have hmem : Memory.wf (afterOpcode s).mem size = true := hs
  rcases stepWith_next h with ⟨i, -, hi⟩ | ⟨-, rfl⟩
  · exact execWith_keeps_wf hsize hmem hi
  · exact hmem

/-! ## The Indexed forms, at the address of PCR_BASE (40_addressing.md R126) -/

/-- The Indexed forms that store their result, each with its byte transform (43_rmw.md R201 to R211). -/
def storingIndexedForms (p : Parameters) (ix : Indexed) : List (ByteTransform × Instr) :=
  [(negByte p.negCMode, .negIndexed ix), (comByte, .comIndexed ix), (lsrByte, .lsrIndexed ix),
   (rorByte, .rorIndexed ix), (asrByte, .asrIndexed ix), (aslByte, .aslIndexed ix), (rolByte, .rolIndexed ix),
   (decByte, .decIndexed ix), (incByte, .incIndexed ix), (clrByte, .clrIndexed ix)]

/-- Each of them applies its transform at the address of the operand stage. -/
theorem execWith_storingIndexed (p : Parameters) (ix : Indexed) (s : State) :
    ∀ form ∈ storingIndexedForms p ix, execWith p form.2 s =
      .next (rmwAt form.1 (resolveIndexed p.pcrBase ix s).1.value (indexedStage ix s p.pcrBase).2) := by
  simp only [storingIndexedForms, List.forall_mem_cons]
  exact ⟨rfl, rfl, rfl, rfl, rfl, rfl, rfl, rfl, rfl, rfl, nofun⟩

/-! ## The obligation -/

/-- Settles O60: the clauses about the engine are the lemmas above and those of Laws, and the rules of NEG, of the other
Indexed forms and of SWI3 are the meanings themselves. -/
theorem stepUnderEveryParameter : Obligations.StepUnderEveryParameter := by
  unfold Obligations.StepUnderEveryParameter
  refine ⟨stepWith_default, fun p page row hp hrow => lookupOpcode_of_legal hp hrow,
    fun p s i hd => executeInstructionWith_of_decode hd, fun p s page op hd => executeInstructionWith_of_unassigned hd,
    fun p s t n h => completed_zero_iff h, fun p q i s hn hb hv => execWith_congr hn hb hv s,
    fun p dd ea s => ⟨rfl, rfl⟩, fun p ix s => ⟨?storing, rfl, rfl, rfl, rfl⟩, fun p s => rfl,
    fun p s t hp hs h => stepWith_keeps_wf ?size hs h⟩
  case storing => exact fun f i hform => execWith_storingIndexed p ix s (f, i) hform
  case size => exact Nat.le_trans (by decide) hp.memSize

end Sys2Proof.Machine
end

section
/-! The canonical form of memory (10_state.md R37): a step, a host move and a run keep it, and it makes memories with
equal bytes equal data. -/

namespace Sys2Proof.Machine

/-! ## Steps, host moves and runs -/

/-- Settles O20: a step keeps the canonical form under every parameter value, the spec's defaults included. -/
theorem stepKeepsMemoryCanonical : Obligations.StepKeepsMemoryCanonical := by
  unfold Obligations.StepKeepsMemoryCanonical
  intro s t hs h
  exact stepWith_keeps_wf (p := defaultParameters) (by decide) hs (stepWith_default s ▸ h)

/-- Settles O21: the reset memory lists no cell. -/
theorem resetMemoryIsCanonical : Obligations.ResetMemoryIsCanonical := by
  unfold Obligations.ResetMemoryIsCanonical
  exact (Memory.wf_iff [] memSize).mpr ⟨.nil, nofun⟩

/-- One event of a platform keeps the canonical form: a step does, and so does a host move. -/
theorem platformEvent_keeps_inv {e : PlatformEvent} {s t : State} (hs : s.Inv) (h : platformEvent e s = .next t) :
    t.Inv := by
  cases e with
  | step => exact stepKeepsMemoryCanonical s t hs h
  | host m =>
    simp only [platformEvent] at h
    cases hm : hostMove m s with
    | ok u => rw [hm] at h; cases h; exact hostMove_keeps_wf hs hm
    | error r => rw [hm] at h; cases h

/-- A run that reaches a state made its first event without a fault and ran the others from there. -/
theorem platformRun_cons_next {e : PlatformEvent} {es : List PlatformEvent} {s t : State}
    (h : platformRun (e :: es) s = .next t) : ∃ u, platformEvent e s = .next u ∧ platformRun es u = .next t := by
  rw [platformRun] at h
  cases he : platformEvent e s with
  | next u => rw [he] at h; exact ⟨u, rfl, h⟩
  | fault r => rw [he] at h; cases h
  | refused r => rw [he] at h; cases h

/-- Settles O24, by induction on the events of the run. -/
theorem platformRunsKeepMemoryCanonical : Obligations.PlatformRunsKeepMemoryCanonical := by
  unfold Obligations.PlatformRunsKeepMemoryCanonical
  intro es
  induction es with
  | nil => intro s t hs h; cases h; exact hs
  | cons e es ih =>
    intro s t hs h
    obtain ⟨u, hu, ht⟩ := platformRun_cons_next h
    exact ih u t (platformEvent_keeps_inv hs hu) ht

/-! ## The form is a function of the bytes -/

/-- The first cell of a canonical memory, and the rest of it. -/
theorem Memory.wf_cons (c : Host.Cell) (m : Memory) (size : Nat) :
    Memory.wf (c :: m) size = true ↔
      (∀ d ∈ m, c.1 < d.1) ∧ (c.1 < size ∧ c.2 ≠ Memory.fill) ∧ Memory.wf m size = true := by
  simp only [Memory.wf_iff, List.pairwise_cons, List.forall_mem_cons]
  tauto

/-- A canonical memory lists exactly the bytes that are not the fill byte. -/
theorem Memory.mem_iff_read {m : Memory} {size : Nat} (h : Memory.wf m size = true) (c : Host.Cell) :
    c ∈ m ↔ Memory.read m c.1 = c.2 ∧ c.2 ≠ Memory.fill := by
  induction m with
  | nil => simp [Memory.read, eq_comm]
  | cons d m ih =>
    obtain ⟨hlt, ⟨-, hfill⟩, hm⟩ := (Memory.wf_cons d m size).mp h
    by_cases hc : d.1 = c.1
    · have hnot : c ∉ m := fun hmem => (hlt c hmem).ne hc
      have hread : Memory.read (d :: m) c.1 = d.2 := by rw [Memory.read, if_pos hc]
      rw [List.mem_cons, or_iff_left hnot, hread]
      constructor
      · rintro rfl
        exact ⟨rfl, hfill⟩
      · rintro ⟨hv, -⟩
        exact Prod.ext hc.symm hv.symm
    · have hne : c ≠ d := fun he => hc (congrArg Prod.fst he.symm)
      rw [List.mem_cons, or_iff_right hne, ih hm, Memory.read, if_neg hc]

/-- Settles O19: the bytes of a canonical memory say which cells it lists, and their order is fixed. -/
theorem canonicalMemoriesWithEqualBytesAreEqual : Obligations.CanonicalMemoriesWithEqualBytesAreEqual := by
  unfold Obligations.CanonicalMemoriesWithEqualBytesAreEqual
  intro m n hm hn hread
  have hrm := ((Memory.wf_iff m memSize).mp hm).1
  have hrn := ((Memory.wf_iff n memSize).mp hn).1
  have nodup : ∀ l : Memory, l.Pairwise (fun c d => c.1 < d.1) → l.Nodup :=
    fun l hl => hl.imp fun hlt he => hlt.ne (congrArg Prod.fst he)
  have hperm : m.Perm n := (List.perm_ext_iff_of_nodup (nodup m hrm) (nodup n hrn)).mpr fun c => by
    rw [Memory.mem_iff_read hm, Memory.mem_iff_read hn, hread]
  exact hperm.eq_of_pairwise (fun c d _ _ hcd hdc => absurd hcd hdc.asymm) hrm hrn

end Sys2Proof.Machine
end

section
/-! What a stream that decodes begins with: the bytes of the instruction, opcode and operand (30_encoding.md R81). -/

namespace Sys2Proof

open Sys2Proof.Machine (BeginsWith)

/-- The opcode bytes of a row: its byte, on page 2 behind the page byte (30_encoding.md R82). -/
def Page.opcodePrefix : Page → Byte → List Byte
  | .one, op => [op]
  | .two, op => [pageTwoByte, op]

/-- An instruction is encoded as the given bytes, and `wf` says whether it is well-formed. -/
def Instr.EncodesAs (i : Instr) (bs : List Byte) (wf : Bool) : Prop := encode i = bs ∧ i.wf = wf

/-- The encoder gives an entry's instructions the given opcode bytes, then the operand bytes of its format
(30_encoding.md R81). -/
def Entry.EncodesWith (opcode : List Byte) : Entry → Prop
  | .direct mk => ∀ dd, (mk dd).EncodesAs (opcode ++ [dd]) true
  | .indexed mk => ∀ ix, (mk ix).EncodesAs (opcode ++ ix.bytes) ix.wf
  | .extended mk => ∀ w, (mk w).EncodesAs (opcode ++ wordBytes w) true
  | .immediate mk => ∀ w, (mk w).EncodesAs (opcode ++ wordBytes w) true
  | .inherent i => i.EncodesAs opcode true

/-- The encoder and the opcode map agree on every row (30_encoding.md R83, R84). -/
theorem opcodeMap_encodesWith (page : Page) :
    ∀ row ∈ opcodeMap page, row.entry.EncodesWith (page.opcodePrefix row.opcode) := by
  cases page with
  | one =>
    simp only [opcodeMap, pageOneDirect, pageOneIndexed, pageOneExtended, List.forall_mem_append, List.forall_mem_cons]
    simp [Entry.EncodesWith, Instr.EncodesAs, Page.opcodePrefix, encode, Instr.wf]
  | two =>
    simp only [opcodeMap, pageTwoBranches, pageTwoOthers, List.forall_mem_append, List.forall_mem_cons]
    simp [Entry.EncodesWith, Instr.EncodesAs, Page.opcodePrefix, encode, Instr.wf]

/-- A stream begins with two runs of bytes, one after the other. -/
theorem beginsWith_append {st : Nat → Byte} {bs cs : List Byte} (hb : BeginsWith st bs)
    (hc : BeginsWith (fun k => st (bs.length + k)) cs) : BeginsWith st (bs ++ cs) := by
  induction bs generalizing st with
  | nil => simpa using hc
  | cons b bs ih =>
    obtain ⟨h0, hb⟩ := beginsWith_cons.mp hb
    refine beginsWith_cons.mpr ⟨h0, ih hb ?_⟩
    simpa [Nat.add_right_comm] using hc

/-- The dispatch reads the opcode bytes of its page (30_encoding.md R82; 42_engine.md R182). -/
theorem beginsWith_opcodePrefix (st : Nat → Byte) :
    BeginsWith st ((opcodePage st).opcodePrefix (opcodeByte st)) := by
  unfold opcodeByte
  by_cases h : st 0 = pageTwoByte
  · have hp : opcodePage st = .two := if_pos h
    rw [hp]
    exact beginsWith_cons.mpr ⟨h, beginsWith_cons.mpr ⟨rfl, nofun⟩⟩
  · have hp : opcodePage st = .one := if_neg h
    rw [hp]
    exact beginsWith_cons.mpr ⟨rfl, nofun⟩

/-- As many bytes as the page's opcode takes. -/
theorem Page.opcodePrefix_length (page : Page) (op : Byte) : (page.opcodePrefix op).length = page.opcodeBytes := by
  cases page <;> rfl

/-- A stream that decodes found an entry for its opcode, and read the operand after the opcode bytes. -/
theorem decode_eq_ok {st : Nat → Byte} {i : Instr} (h : decode st = .ok i) :
    ∃ e, lookupOpcode (opcodePage st) (opcodeByte st) = some e ∧
      decodeOperand e (fun k => st ((opcodePage st).opcodeBytes + k)) = .ok i := by
  unfold decode at h
  cases hl : lookupOpcode (opcodePage st) (opcodeByte st) with
  | none => rw [hl] at h; cases h
  | some e => rw [hl] at h; exact ⟨e, rfl, h⟩

/-- The operand bytes an entry's instruction was read from follow its opcode bytes in the encoding. -/
theorem Entry.EncodesWith.of_decodeOperand {e : Entry} {opcode : List Byte} {st : Nat → Byte} {i : Instr}
    (he : e.EncodesWith opcode) (h : decodeOperand e st = .ok i) :
    i.wf = true ∧ ∃ operand, encode i = opcode ++ operand ∧ BeginsWith st operand := by
  rcases decodeOperand_eq_ok h with
    ⟨mk, rfl, rfl⟩ | ⟨mk, ix, rfl, rfl, hix, hb⟩ | ⟨mk, w, rfl | rfl, rfl, hb⟩ | rfl
  · obtain ⟨henc, hwf⟩ := he (st 0)
    exact ⟨hwf, _, henc, beginsWith_cons.mpr ⟨rfl, nofun⟩⟩
  · obtain ⟨henc, hwf⟩ := he ix
    exact ⟨hwf.trans hix, _, henc, hb⟩
  · obtain ⟨henc, hwf⟩ := he w
    exact ⟨hwf, _, henc, hb⟩
  · obtain ⟨henc, hwf⟩ := he w
    exact ⟨hwf, _, henc, hb⟩
  · obtain ⟨henc, hwf⟩ := he
    exact ⟨hwf, [], by rw [henc, List.append_nil], nofun⟩

/-- The instruction a stream decodes to is well-formed, and the stream begins with its bytes. -/
theorem wf_and_beginsWith_of_decode {st : Nat → Byte} {i : Instr} (h : decode st = .ok i) :
    i.wf = true ∧ BeginsWith st (encode i) := by
  obtain ⟨e, hl, ho⟩ := decode_eq_ok h
  obtain ⟨hwf, operand, henc, hb⟩ := (opcodeMap_encodesWith _ _ (mem_opcodeMap_of_lookup hl)).of_decodeOperand ho
  refine ⟨hwf, henc ▸ beginsWith_append (beginsWith_opcodePrefix st) ?_⟩
  rwa [Page.opcodePrefix_length]

/-- The page the dispatch took is that of the decoded instruction. -/
theorem opcodePage_of_decode {st : Nat → Byte} {i : Instr} (h : decode st = .ok i) : opcodePage st = i.page :=
  opcodePage_of_beginsWith (wf_and_beginsWith_of_decode h).2

end Sys2Proof
end

section
/-! What an instruction and a step do to PC, to the other registers and to the flags (10_state.md sections 1 and 2). -/

namespace Sys2Proof.Machine

/-- Settles O9: the opcode bytes and the operand bytes that PC moves past make up the encoding of the instruction. -/
theorem pcMovesPastInstruction : Obligations.PcMovesPastInstruction := by
  unfold Obligations.PcMovesPastInstruction
  intro s i hd hr
  obtain ⟨t, ht, hstep, -⟩ := executeInstruction_of_decode hd
  refine ⟨t, hstep, ?_⟩
  rw [exec_pc hr ht, afterOpcode, State.advance_pc, opcodePage_of_decode hd, advanceWord_advanceWord,
    Nat.add_sub_cancel' (opcodeBytes_le_length i), advanceWord_toNat]

/-! ## What an effect leaves unchanged -/

/-- Base registers of states with the same registers. -/
theorem SameRegisters.base {s t : State} (h : SameRegisters s t) (r : BaseReg) : t.base r = s.base r := by
  obtain ⟨-, -, -, hx, hy, hu, hs⟩ := h
  cases r with
  | x => exact hx
  | y => exact hy
  | u => exact hu
  | s => exact hs

/-- The execute stage after the operand stage writes no register but PC and CC. -/
theorem Effect.sameRegisters {s t : State} {ea : Word} (h : Effect s ea t) : SameRegisters s t := by
  cases h <;> exact ⟨rfl, rfl, rfl, rfl, rfl, rfl, rfl⟩

/-- It writes no flag but C, V, Z and N. -/
theorem Effect.sameFlags {s t : State} {ea : Word} (h : Effect s ea t) : SameFlagsExcept [.C, .V, .Z, .N] s t := by
  intro g hg
  cases h with
  | store f hf | test f hf => exact hf _ _ g hg
  | jump | pass => rfl
  | compare register operand => exact compareFlags_flags register operand s.cc hg

/-- An instruction that answers a next state had an effect after its operand stage, or took the trap. -/
theorem exec_next {i : Instr} {s t : State} (h : exec i s = .next t) :
    (∃ operand : Word × State, StageOf s operand.2 ∧ Effect operand.2 operand.1 t ∧ i ≠ .swi3 ∧
        (∀ q, ¬ AutoModifies i q → operand.2.base q = s.base q)) ∨
      (i = .swi3 ∧ t = enterTrap swi3Vector s) := by
  obtain ⟨u, hu, hcases⟩ := exec_cases i s
  rw [hu] at h
  cases h
  exact hcases

/-! ## A, B and DP (10_state.md R21, R23) -/

/-- No instruction writes A, B or DP. -/
theorem exec_keeps_a_b_dp {i : Instr} {s t : State} (h : exec i s = .next t) :
    t.a = s.a ∧ t.b = s.b ∧ t.dp = s.dp := by
  rcases exec_next h with ⟨operand, hstage, heffect, -⟩ | ⟨-, rfl⟩
  · obtain ⟨ha, hb, hdp, -⟩ := heffect.sameRegisters
    exact ⟨ha.trans hstage.a, hb.trans hstage.b, hdp.trans hstage.dp⟩
  · exact ⟨enterTrap_a _ s, enterTrap_b _ s, enterTrap_dp _ s⟩

/-- Settles O25: a step runs an instruction, and passing the opcode bytes writes PC alone. -/
theorem stepsNeverWriteAccumulatorsOrDp : Obligations.StepsNeverWriteAccumulatorsOrDp := by
  unfold Obligations.StepsNeverWriteAccumulatorsOrDp
  intro s t h
  obtain ⟨i, -, hi⟩ := step_next h
  exact exec_keeps_a_b_dp (s := afterOpcode s) hi

/-! ## X, Y, U and S (10_state.md R24, R25) -/

/-- The trap entry moves S alone of the base registers (46_swi3.md R280). -/
theorem enterTrap_base {r : BaseReg} (h : r ≠ .s) (v : Word) (s : State) : (enterTrap v s).base r = s.base r := by
  cases r with
  | s => exact absurd rfl h
  | _ => rfl

/-- Settles O26: an operand stage writes the register of an auto mode, the trap entry writes S, and nothing else writes
a base register. -/
theorem baseRegistersChangeOnlyByAutoModes : Obligations.BaseRegistersChangeOnlyByAutoModes := by
  unfold Obligations.BaseRegistersChangeOnlyByAutoModes
  intro i s t h r hauto hswi3
  rcases exec_next h with ⟨operand, -, heffect, -, hbase⟩ | ⟨rfl, rfl⟩
  · exact (heffect.sameRegisters.base r).trans (hbase r hauto)
  · exact enterTrap_base (fun hr => hswi3 ⟨hr, rfl⟩) _ s

/-! ## I, H, F and E (10_state.md R31, R33) -/

/-- The trap entry sets E and writes no other flag (46_swi3.md R280). -/
theorem enterTrap_flag (v : Word) (s : State) (f : Flag) :
    (enterTrap v s).flag f = if f = .E then true else s.flag f := by
  rw [State.flag, enterTrap_cc, getFlag_setFlag, State.flag]

/-- Settles O27: an effect writes C, V, Z and N at most, the operand stage before it no flag, and the trap entry E. -/
theorem maskFlagsChangeOnlyBySwi3 : Obligations.MaskFlagsChangeOnlyBySwi3 := by
  unfold Obligations.MaskFlagsChangeOnlyBySwi3
  intro i s t h
  rcases exec_next h with ⟨operand, hstage, heffect, hi, -⟩ | ⟨rfl, rfl⟩
  · have hflag : ∀ f, f ∉ [Flag.C, .V, .Z, .N] → t.flag f = s.flag f := fun f hf =>
      (heffect.sameFlags f hf).trans (congrArg (getFlag f) hstage.cc)
    rw [if_neg hi]
    exact ⟨hflag .I (by decide), hflag .H (by decide), hflag .F (by decide), hflag .E (by decide)⟩
  · exact ⟨enterTrap_flag _ s .I, enterTrap_flag _ s .H, enterTrap_flag _ s .F, enterTrap_flag _ s .E⟩

end Sys2Proof.Machine
end

section
/-! The mask flags have no effect (10_state.md R33). Every instruction but SWI3 is an operand form followed by an
operation, the same ones from every state; each takes states that differ in I, H, F and E alone to such states. -/

namespace Sys2Proof.Machine

/-! ## An instruction as an operand form and an operation -/

/-- How an instruction gets its operand (40_addressing.md R110). -/
inductive OperandForm where
  | direct (dd : Byte)
  | indexed (ix : Indexed)
  | extended (ea : Word)
  | immediate (w : Word)

/-- The operand stage of a form. -/
def OperandForm.stage : OperandForm → State → Word × State
  | .direct dd, s => directStage dd s
  | .indexed ix, s => indexedStage ix s
  | .extended ea, s => extendedStage ea s
  | .immediate w, s => immediateStage w s

/-- What an instruction does with its operand. -/
inductive Operation where
  | store (f : ByteTransform)
  | test (f : ByteTransform)
  | jump
  | branch (condition : Byte → Bool)
  | compareValue (register : State → Word)
  | compareMemory (register : State → Word)

/-- The state an operation gives, from the operand and the state the operand stage left. -/
def Operation.run : Operation → Word × State → State
  | .store f, operand => rmwAt f operand.1 operand.2
  | .test f, operand => testAt f operand.1 operand.2
  | .jump, operand => operand.2.setPc operand.1
  | .branch condition, operand =>
    if condition operand.2.cc then operand.2.setPc (operand.2.pc + operand.1) else operand.2
  | .compareValue register, operand => Machine.compareValue register operand
  | .compareMemory register, operand => Machine.compareMemory register operand

/-- The transforms whose result is stored (43_rmw.md R201 to R211). -/
def storedTransforms : List ByteTransform :=
  [negByte negCMode, comByte, lsrByte, rorByte, asrByte, aslByte, rolByte, decByte, incByte, clrByte]

/-- The conditions of the long branches (44_jmp_lbranch.md R242 to R256). -/
def longBranchConditions : List (Byte → Bool) :=
  [neverCondition, higherCondition, lowerOrSameCondition, carryClearCondition, carrySetCondition, notEqualCondition,
   equalCondition, overflowClearCondition, overflowSetCondition, plusCondition, minusCondition,
   greaterOrEqualCondition, lessThanCondition, greaterThanCondition, lessOrEqualCondition]

/-- The operations of the instructions other than SWI3. -/
inductive Operation.Used : Operation → Prop where
  | store {f : ByteTransform} (h : f ∈ storedTransforms) : Used (.store f)
  | test : Used (.test tstByte)
  | jump : Used .jump
  | branch {condition : Byte → Bool} (h : condition ∈ longBranchConditions) : Used (.branch condition)
  | compareValueD : Used (.compareValue State.d)
  | compareValueY : Used (.compareValue State.y)
  | compareMemoryD : Used (.compareMemory State.d)
  | compareMemoryY : Used (.compareMemory State.y)

/-- An instruction other than SWI3 has an operand form and an operation, the same from every state. -/
theorem exec_eq_run_stage {i : Instr} (hi : i ≠ .swi3) :
    ∃ (form : OperandForm) (op : Operation), op.Used ∧ ∀ s, exec i s = .next (op.run (form.stage s)) := by
  cases i with
  | swi3 => exact absurd rfl hi
  | negDirect dd | comDirect dd | lsrDirect dd | rorDirect dd | asrDirect dd | aslDirect dd | rolDirect dd
  | decDirect dd | incDirect dd | clrDirect dd =>
    refine ⟨.direct dd, .store _, .store ?_, fun s => rfl⟩
    simp [storedTransforms, defaultParameters]
  | negIndexed ix | comIndexed ix | lsrIndexed ix | rorIndexed ix | asrIndexed ix | aslIndexed ix | rolIndexed ix
  | decIndexed ix | incIndexed ix | clrIndexed ix =>
    refine ⟨.indexed ix, .store _, .store ?_, fun s => rfl⟩
    simp [storedTransforms, defaultParameters]
  | negExtended ea | comExtended ea | lsrExtended ea | rorExtended ea | asrExtended ea | aslExtended ea
  | rolExtended ea | decExtended ea | incExtended ea | clrExtended ea =>
    refine ⟨.extended ea, .store _, .store ?_, fun s => rfl⟩
    simp [storedTransforms, defaultParameters]
  | tstDirect dd => exact ⟨.direct dd, _, .test, fun s => rfl⟩
  | tstIndexed ix => exact ⟨.indexed ix, _, .test, fun s => rfl⟩
  | tstExtended ea => exact ⟨.extended ea, _, .test, fun s => rfl⟩
  | jmpDirect dd => exact ⟨.direct dd, _, .jump, fun s => rfl⟩
  | jmpIndexed ix => exact ⟨.indexed ix, _, .jump, fun s => rfl⟩
  | jmpExtended ea => exact ⟨.extended ea, _, .jump, fun s => rfl⟩
  | lbrn off | lbhi off | lbls off | lbcc off | lbcs off | lbne off | lbeq off | lbvc off | lbvs off | lbpl off
  | lbmi off | lbge off | lblt off | lbgt off | lble off =>
    refine ⟨.immediate off, .branch _, .branch ?_, fun s => rfl⟩
    simp [longBranchConditions]
  | cmpdImmediate w => exact ⟨.immediate w, _, .compareValueD, fun s => rfl⟩
  | cmpdDirect dd => exact ⟨.direct dd, _, .compareMemoryD, fun s => rfl⟩
  | cmpdIndexed ix => exact ⟨.indexed ix, _, .compareMemoryD, fun s => rfl⟩
  | cmpdExtended ea => exact ⟨.extended ea, _, .compareMemoryD, fun s => rfl⟩
  | cmpyImmediate w => exact ⟨.immediate w, _, .compareValueY, fun s => rfl⟩
  | cmpyDirect dd => exact ⟨.direct dd, _, .compareMemoryY, fun s => rfl⟩
  | cmpyIndexed ix => exact ⟨.indexed ix, _, .compareMemoryY, fun s => rfl⟩
  | cmpyExtended ea => exact ⟨.extended ea, _, .compareMemoryY, fun s => rfl⟩

/-! ## Values of CC that agree on C, V, Z and N

The setters, the adders and the flags of a compare take agreeing values of CC to agreeing ones. -/

/-- The two values differ in I, H, F and E at most. -/
def ArithmeticFlagsAgree (cc cc' : Byte) : Prop := ∀ f, f ∈ [Flag.C, .V, .Z, .N] → getFlag f cc' = getFlag f cc

namespace ArithmeticFlagsAgree

variable {cc cc' : Byte}

theorem setFlag (h : ArithmeticFlagsAgree cc cc') (f : Flag) (v : Bool) :
    ArithmeticFlagsAgree (setFlag f v cc) (setFlag f v cc') := by
  intro g hg
  rw [getFlag_setFlag, getFlag_setFlag, h g hg]

theorem setNZ8 (h : ArithmeticFlagsAgree cc cc') (r : Byte) : ArithmeticFlagsAgree (setNZ8 r cc) (setNZ8 r cc') :=
  (h.setFlag .Z _).setFlag .N _

theorem setNZ16 (h : ArithmeticFlagsAgree cc cc') (r : Word) : ArithmeticFlagsAgree (setNZ16 r cc) (setNZ16 r cc') :=
  (h.setFlag .Z _).setFlag .N _

theorem raiseFlag (h : ArithmeticFlagsAgree cc cc') (f : Flag) (enabled condition : Bool) :
    ArithmeticFlagsAgree (raiseFlag f enabled condition cc) (raiseFlag f enabled condition cc') := by
  intro g hg
  rw [getFlag_raiseFlag, getFlag_raiseFlag, h g hg]

theorem binaryAdd8 (h : ArithmeticFlagsAgree cc cc') (a b : Byte) (half carry overflow : Bool) :
    ArithmeticFlagsAgree (binaryAdd8 a b half carry overflow cc).2 (binaryAdd8 a b half carry overflow cc').2 :=
  ((h.raiseFlag .H _ _).raiseFlag .C _ _).raiseFlag .V _ _

theorem binaryAdd16 (h : ArithmeticFlagsAgree cc cc') (a b : Word) (half carry overflow : Bool) :
    ArithmeticFlagsAgree (binaryAdd16 a b half carry overflow cc).2 (binaryAdd16 a b half carry overflow cc').2 :=
  ((h.raiseFlag .H _ _).raiseFlag .C _ _).raiseFlag .V _ _

theorem compareFlags (h : ArithmeticFlagsAgree cc cc') (register operand : Word) :
    ArithmeticFlagsAgree (compareFlags register operand cc) (compareFlags register operand cc') :=
  (((h.setFlag .C false).setFlag .V false).binaryAdd16 _ _ _ _ _).setNZ16 _

/-- Every condition of a long branch is a test of C, V, Z and N. -/
theorem condition_eq (h : ArithmeticFlagsAgree cc cc') {condition : Byte → Bool}
    (hc : condition ∈ longBranchConditions) : condition cc' = condition cc := by
  have hC := h .C (by decide)
  have hV := h .V (by decide)
  have hZ := h .Z (by decide)
  have hN := h .N (by decide)
  revert condition
  simp [longBranchConditions, neverCondition, higherCondition, lowerOrSameCondition, carryClearCondition,
    carrySetCondition, notEqualCondition, equalCondition, overflowClearCondition, overflowSetCondition, plusCondition,
    minusCondition, greaterOrEqualCondition, lessThanCondition, greaterThanCondition, lessOrEqualCondition, hC, hV, hZ,
    hN]

end ArithmeticFlagsAgree

/-- A byte transform whose result and whose C, V, Z and N do not depend on I, H, F and E. -/
def IgnoresMaskFlags (f : ByteTransform) : Prop :=
  ∀ v cc cc', ArithmeticFlagsAgree cc cc' → (f v cc').1 = (f v cc).1 ∧ ArithmeticFlagsAgree (f v cc).2 (f v cc').2

/-- NEG's transform, for every value of NEG_C_MODE. -/
theorem negByte_ignoresMaskFlags (mode : NegCMode) : IgnoresMaskFlags (negByte mode) := by
  intro v cc cc' h
  have hvnz := (h.setFlag .V (v == 0x80#8)).setNZ8 (twosComplement8 v)
  cases mode with
  | clear => exact ⟨rfl, hvnz.setFlag .C _⟩
  | borrow => exact ⟨rfl, hvnz.setFlag .C _⟩
  | unchanged => exact ⟨rfl, hvnz⟩

/-- ROR's transform: the result takes the old carry. -/
theorem rorByte_ignoresMaskFlags : IgnoresMaskFlags rorByte := by
  intro v cc cc' h
  have hC := h .C (by decide)
  simp only [rorByte, hC, true_and]
  exact (h.setFlag .C _).setNZ8 _

/-- ROL's transform: the result takes the old carry. -/
theorem rolByte_ignoresMaskFlags : IgnoresMaskFlags rolByte := by
  intro v cc cc' h
  have hC := h .C (by decide)
  simp only [rolByte, hC, true_and]
  exact ((h.setFlag .C _).setFlag .V _).setNZ8 _

/-- TST's transform. -/
theorem tstByte_ignoresMaskFlags : IgnoresMaskFlags tstByte :=
  fun v _ _ h => ⟨rfl, (h.setNZ8 v).setFlag .V false⟩

/-- Every transform whose result is stored. -/
theorem storedTransforms_ignoreMaskFlags : ∀ f ∈ storedTransforms, IgnoresMaskFlags f := by
  simp only [storedTransforms, List.forall_mem_cons]
  refine ⟨negByte_ignoresMaskFlags _, ?com, ?lsr, rorByte_ignoresMaskFlags, ?asr, ?asl, rolByte_ignoresMaskFlags, ?dec,
    ?inc, ?clr, nofun⟩
  case com => exact fun v _ _ h => ⟨rfl, ((h.setFlag .C _).setFlag .V _).setNZ8 _⟩
  case lsr => exact fun v _ _ h => ⟨rfl, ((h.setFlag .C _).setFlag .Z _).setFlag .N _⟩
  case asr => exact fun v _ _ h => ⟨rfl, (h.setFlag .C _).setNZ8 _⟩
  case asl => exact fun v _ _ h => ⟨rfl, ((h.setFlag .C _).setFlag .V _).setNZ8 _⟩
  case dec => exact fun v _ _ h => ⟨rfl, ((h.binaryAdd8 _ _ _ _ _).setFlag .V _).setNZ8 _⟩
  case inc => exact fun v _ _ h => ⟨rfl, ((h.binaryAdd8 _ _ _ _ _).setFlag .V _).setNZ8 _⟩
  case clr =>
    exact fun v _ _ h => ⟨rfl, (((h.setFlag .Z _).setFlag .N _).setFlag .C _).setFlag .V _⟩

/-! ## States that differ in the mask flags alone -/

/-- The two states differ in I, H, F and E at most. -/
structure DifferInMaskFlags (s s' : State) : Prop where
  state : s' = s.setCc s'.cc
  flags : ArithmeticFlagsAgree s.cc s'.cc

/-- The write-back does not depend on CC. -/
theorem writeBack_setCc (r : BaseReg) (indirect : Bool) (m : SubMode) (s : State) (cc : Byte) :
    writeBack r indirect m (s.setCc cc) = (writeBack r indirect m s).setCc cc := by
  have hbase : ∀ v, (s.setCc cc).setBase r v = (s.setBase r v).setCc cc := fun v => by cases r <;> rfl
  simp only [writeBack, State.base_setCc, hbase]
  split <;> rfl

/-- The address of a sub-mode does not depend on CC. -/
theorem subModeAddress_setCc (base : PcrBase) (r : BaseReg) (m : SubMode) (s : State) (cc : Byte) :
    subModeAddress base r m (s.setCc cc) = subModeAddress base r m s := by
  cases m <;> simp [subModeAddress]

/-- The Indexed resolver does not depend on CC. -/
theorem resolveIndexed_setCc (base : PcrBase) (ix : Indexed) (s : State) (cc : Byte) :
    resolveIndexed base ix (s.setCc cc) = ((resolveIndexed base ix s).1, (resolveIndexed base ix s).2.setCc cc) := by
  cases ix with
  | offset5 r off => simp only [resolveIndexed, State.base_setCc]
  | mode r indirect m =>
    simp only [resolveIndexed, subModeAddress_setCc, State.readWord_setCc, writeBack_setCc]

/-- No operand stage depends on CC. -/
theorem OperandForm.stage_setCc (form : OperandForm) (s : State) (cc : Byte) :
    form.stage (s.setCc cc) = ((form.stage s).1, (form.stage s).2.setCc cc) := by
  cases form with
  | indexed ix => simp only [OperandForm.stage, indexedStage, resolveIndexed_setCc]; rfl
  | direct | extended | immediate => rfl

/-- No operand stage writes CC. -/
theorem OperandForm.stage_cc (form : OperandForm) (s : State) : (form.stage s).2.cc = s.cc := by
  cases form with
  | indexed ix => exact (indexedStage_stage ix s).cc
  | direct | extended | immediate => rfl

/-- No operation depends on I, H, F and E, but for leaving them in CC. -/
theorem Operation.Used.run_differInMaskFlags {op : Operation} (hop : op.Used) (ea : Word) (s : State) {cc' : Byte}
    (h : ArithmeticFlagsAgree s.cc cc') : DifferInMaskFlags (op.run (ea, s)) (op.run (ea, s.setCc cc')) := by
  cases hop with
  | store hf =>
    obtain ⟨hr, hcc⟩ := storedTransforms_ignoreMaskFlags _ hf (s.readByte ea) s.cc cc' h
    refine ⟨?_, hcc⟩
    simp only [Operation.run, rmwAt_eq, State.readByte_setCc, State.setCc_cc, hr]
    rfl
  | test =>
    obtain ⟨-, hcc⟩ := tstByte_ignoresMaskFlags (s.readByte ea) s.cc cc' h
    exact ⟨rfl, hcc⟩
  | jump => exact ⟨rfl, h⟩
  | branch hc =>
    simp only [Operation.run, State.setCc_cc, h.condition_eq hc]
    split
    · exact ⟨rfl, h⟩
    · exact ⟨rfl, h⟩
  | compareValueD | compareValueY | compareMemoryD | compareMemoryY => exact ⟨rfl, h.compareFlags _ _⟩

/-- Settles O28: the operand form and the operation of the instruction are the same from both states, and neither
depends on the mask flags. -/
theorem maskFlagsHaveNoEffect : Obligations.MaskFlagsHaveNoEffect := by
  unfold Obligations.MaskFlagsHaveNoEffect
  intro i s s' t hi hs hflags ht
  obtain ⟨form, op, hop, hexec⟩ := exec_eq_run_stage hi
  rw [hexec] at ht
  cases ht
  have hcc : ArithmeticFlagsAgree (form.stage s).2.cc s'.cc := by rwa [form.stage_cc s]
  obtain ⟨hstate, hagree⟩ := hop.run_differInMaskFlags (form.stage s).1 (form.stage s).2 hcc
  refine ⟨op.run (form.stage s'), hexec s', ?_⟩
  rw [hs, form.stage_setCc]
  exact ⟨hstate, hagree⟩

end Sys2Proof.Machine
end

section
/-! The D view, the flag setters and the host's mutators (10_state.md R22, R30, R32, R39). -/

namespace Sys2Proof.Machine

/-- The high byte of a word as a number. -/
theorem highByte_toNat (w : Word) : (highByte w).toNat = w.toNat / 256 := by
  have := w.isLt
  simp only [highByte, BitVec.toNat_ofNat]
  omega

/-- The low byte of a word as a number. -/
theorem lowByte_toNat (w : Word) : (lowByte w).toNat = w.toNat % 256 := by
  simp only [lowByte, BitVec.toNat_ofNat]
  omega

/-- D reads as it was written (10_state.md R22). -/
theorem State.d_setD (s : State) (v : Word) : (s.setD v).d = v := joinBytes_high_low v

/-- Settles O29: a word is its two bytes joined, and the write of D is a record update of A and B. -/
theorem dIsTheViewOfAAndB : Obligations.DIsTheViewOfAAndB := by
  unfold Obligations.DIsTheViewOfAAndB
  intro s v
  exact ⟨joinBytes_toNat s.a s.b, highByte_toNat v, lowByte_toNat v, s.d_setD v, rfl⟩

/-- A flag reads as its setter wrote it. -/
theorem getFlag_setFlag_same (f : Flag) (v : Bool) (cc : Byte) : getFlag f (setFlag f v cc) = v := by
  rw [getFlag_setFlag, if_pos rfl]

/-- A setter leaves every other flag as it was. -/
theorem getFlag_setFlag_other {f g : Flag} (h : g ≠ f) (v : Bool) (cc : Byte) :
    getFlag g (setFlag f v cc) = getFlag g cc := by
  rw [getFlag_setFlag, if_neg h]

/-- Settles O30: the bit numbers are the definition of a flag, and the setter has one law per case. -/
theorem flagSettersWriteOneBit : Obligations.FlagSettersWriteOneBit := by
  unfold Obligations.FlagSettersWriteOneBit
  intro cc v
  refine ⟨rfl, rfl, rfl, rfl, rfl, rfl, rfl, rfl, fun f g => ⟨getFlag_setFlag_same f v cc, fun h => ?_⟩⟩
  exact getFlag_setFlag_other h v cc

/-- The low byte of a word is the word truncated. -/
theorem lowByte_eq_ofNat (w : Word) : lowByte w = BitVec.ofNat 8 w.toNat := by
  apply BitVec.eq_of_toNat_eq
  rw [lowByte_toNat, BitVec.toNat_ofNat]

/-- The host's write of D writes A and B. -/
theorem hostMove_setD (s : State) (w : Word) :
    hostMove (.setD w) s = .ok { s with a := BitVec.ofNat 8 (w.toNat / 256), b := BitVec.ofNat 8 w.toNat } := by
  rw [← lowByte_eq_ofNat]
  rfl

/-- Settles O59: each register mutator is one record update, and a flag setter writes its own bit of CC. -/
theorem hostMutatorsAndPredicates : Obligations.HostMutatorsAndPredicates := by
  unfold Obligations.HostMutatorsAndPredicates
  intro s v w
  refine ⟨⟨rfl, rfl, rfl, rfl, hostMove_setD s w, rfl, rfl, rfl, rfl, rfl⟩, fun f b => ?setter,
    ⟨rfl, rfl, rfl, rfl, rfl, rfl, rfl⟩⟩
  case setter =>
    exact ⟨setFlag f b s.cc, rfl, getFlag_setFlag_same f b s.cc, fun g hg => getFlag_setFlag_other hg b s.cc⟩

end Sys2Proof.Machine
end

section
/-! A step completes or stops with one of the two faults of an encoding (60_exceptions.md R301, R303), and its access
list is that of 20_memory.md R65. -/

namespace Sys2Proof.Machine

/-! ## The step, by what the stream decodes to -/

theorem step_of_decode {s : State} {i : Instr} (h : decode (instructionStream s) = .ok i) :
    step s = exec i (afterOpcode s) := by
  obtain ⟨t, ht, hs, -⟩ := executeInstruction_of_decode h
  rw [hs, ht]

theorem step_of_unassigned {s : State} {page : Page} {op : Byte}
    (h : decode (instructionStream s) = .error (.unassigned page op)) :
    step s = .fault (.unimplementedOpcode page op) := by
  rw [step, executeInstruction_eq, h]
  rfl

theorem step_of_invalidPostbyte {s : State} {pb : Byte}
    (h : decode (instructionStream s) = .error (.invalidPostbyte pb)) :
    step s = .fault (.invalidAddressingMode pb) := by
  rw [step, executeInstruction_eq, h]
  rfl

/-- Settles O11: a decoded instruction completes, and the two ways to stop raise the other two faults. -/
theorem stepNeverRefusedNorOutOfRange : Obligations.StepNeverRefusedNorOutOfRange := by
  unfold Obligations.StepNeverRefusedNorOutOfRange
  intro s
  rcases step_cases s with ⟨i, -, hs⟩ | ⟨page, op, -, hs⟩ | ⟨pb, -, hs⟩
  · obtain ⟨t, ht, -⟩ := exec_cases i (afterOpcode s)
    rw [hs, ht]
    exact ⟨nofun, nofun⟩
  · rw [hs]
    exact ⟨nofun, nofun⟩
  · rw [hs]
    exact ⟨nofun, nofun⟩

/-! ## The access list of a step that runs an instruction -/

/-- The opcode bytes and the operand bytes of a decoded instruction are one run of reads (20_memory.md R65 steps 1 to
3). -/
theorem byteReads_opcode_append_operand {s : State} {i : Instr} (h : decode (instructionStream s) = .ok i) :
    byteReads s.pc (opcodePage (instructionStream s)).opcodeBytes ++
      byteReads (afterOpcode s).pc ((encode i).length - i.page.opcodeBytes) = byteReads s.pc (encode i).length := by
  rw [afterOpcode, State.advance_pc, byteReads_append, opcodePage_of_decode h,
    Nat.add_sub_cancel' (opcodeBytes_le_length i)]

/-- SWI3 is its two opcode bytes, so its list goes on with the frame and the vector (20_memory.md R65 step 7). -/
theorem stepAccesses_swi3 {s : State} (h : decode (instructionStream s) = .ok .swi3) :
    stepAccesses s = byteReads s.pc (encode .swi3).length ++ swi3Accesses swi3Vector (afterOpcode s) := by
  rw [stepAccesses_ok h, readRun_eq, opcodePage_of_decode h, ← trapAccesses_eq]
  rfl

/-- The list of any other instruction: its bytes, the pointer, the data (20_memory.md R65 steps 1 to 6). -/
theorem stepAccesses_of_exec {s t : State} {i : Instr} (h : decode (instructionStream s) = .ok i)
    (ht : exec i (afterOpcode s) = .next t) (hi : i ≠ .swi3) :
    stepAccesses s = byteReads s.pc (encode i).length ++
      (pointerReads i (afterOpcode s) ++ dataAccesses i (afterOpcode s) t) := by
  rw [stepAccesses_ok h, readRun_eq, instrAccesses_eq ht hi, ← List.append_assoc, byteReads_opcode_append_operand h]

/-- The writes of the list of a step give the memory after it. -/
theorem foldl_stepAccesses {s t : State} {i : Instr} (h : decode (instructionStream s) = .ok i)
    (ht : exec i (afterOpcode s) = .next t) : t.mem = (stepAccesses s).foldl applyAccess s.mem := by
  rw [stepAccesses_ok h, List.foldl_append, foldl_readRun]
  exact instrAccesses_memory ht

/-- Settles O16: the list is read off by what the stream decodes to, SWI3 apart from the other instructions. -/
theorem accessListGivesMemoryAfterStep : Obligations.AccessListGivesMemoryAfterStep := by
  unfold Obligations.AccessListGivesMemoryAfterStep
  intro s
  refine ⟨fun i hd => ?decoded, fun op hd => ?unassigned, fun pb hd => ?invalidPostbyte⟩
  case decoded =>
    obtain ⟨t, ht, hstep, -⟩ := executeInstruction_of_decode hd
    refine ⟨t, hstep, ?_, foldl_stepAccesses hd ht⟩
    by_cases hi : i = .swi3
    · subst hi
      rw [if_pos rfl]
      exact stepAccesses_swi3 hd
    · rw [if_neg hi]
      exact stepAccesses_of_exec hd ht hi
  case unassigned => rw [stepAccesses_unassigned hd, readRun_eq]
  case invalidPostbyte =>
    rw [stepAccesses_invalidPostbyte hd, readRun_eq, readRun_eq, afterOpcode, State.advance_pc, byteReads_append]

end Sys2Proof.Machine
end

section
/-! Single reads and writes of memory: by an instruction at a 16-bit address (20_memory.md R53 to R56), and by the host
at an index of the image (R66, R71). -/

namespace Sys2Proof.Machine

/-- Settles O17: a write changes the entry of its own address, and two addresses have different entries. -/
theorem byteWrittenReadsBack : Obligations.ByteWrittenReadsBack := by
  unfold Obligations.ByteWrittenReadsBack
  intro s a b v
  have hother : ∀ i, i ≠ b.toNat → Memory.read (s.writeByte b v).mem i = Memory.read s.mem i :=
    fun i hi => Memory.read_write_other s.mem v hi
  exact ⟨Memory.read_write_same s.mem b.toNat v, fun hab => hother a.toNat (fun h => hab (BitVec.eq_of_toNat_eq h)),
    hother, ⟨rfl, rfl, rfl, rfl, rfl, rfl, rfl⟩, rfl, rfl⟩

/-- Settles O18: the two bytes are joined as a number, and the second address is the first moved by one. -/
theorem wordReadIsBigEndian : Obligations.WordReadIsBigEndian := by
  unfold Obligations.WordReadIsBigEndian
  intro s a
  rw [State.readWord, joinBytes_toNat, State.readByte, State.readByte, nextWord_eq_advanceWord, advanceWord_toNat]

/-- Settles O23: each operation of the host port tests its index against the size of the image. -/
theorem hostAccessOfMemory : Obligations.HostAccessOfMemory := by
  unfold Obligations.HostAccessOfMemory
  intro s i v
  refine ⟨rfl, fun h => ?wordOut, fun h => ?wordIn, fun h => ?writeOut, fun h => ?writeIn⟩
  case wordOut => exact if_neg (Nat.not_lt.mpr h)
  case wordIn => exact ⟨_, if_pos h, joinBytes_toNat _ _⟩
  case writeOut => exact if_neg (Nat.not_lt.mpr h)
  case writeIn =>
    exact ⟨_, if_pos h, Memory.read_write_same s.mem i v, fun j hj => Memory.read_write_other s.mem v hj,
      ⟨rfl, rfl, rfl, rfl, rfl, rfl, rfl⟩, rfl, rfl⟩

end Sys2Proof.Machine
end

section
/-! No step reads or writes an index of 65536 or more (20_memory.md R51). A step of a state, and the step of the same
state over a memory with the same bytes below 65536, end in states that are again the same but for such a memory: each
operand stage, each operation and the trap entry keep this. -/

namespace Sys2Proof.Machine

/-! ## What a step leaves above 65535 -/

/-- An instruction writes at 16-bit addresses only. -/
theorem exec_keeps_read_above64K {i : Instr} {s t : State} (h : exec i s = .next t) {j : Nat} (hj : 65536 ≤ j) :
    Memory.read t.mem j = Memory.read s.mem j := by
  have hne : ∀ a : Word, j ≠ a.toNat := fun a => (a.isLt.trans_le hj).ne'
  rcases exec_next h with ⟨operand, hstage, heffect, -⟩ | ⟨-, rfl⟩
  · rw [← hstage.mem]
    cases heffect with
    | store f => exact Memory.read_write_other _ _ (hne operand.1)
    | test | jump | pass | compare => rfl
  · exact read_pushMemory_outside fun k _ => hne _

/-! ## The same state over another memory -/

/-- The two memories read the same at every index a 16-bit address selects. -/
def Memory.SameLowBytes (m n : Memory) : Prop := ∀ i, i < 65536 → Memory.read n i = Memory.read m i

/-- Writing one byte to both keeps the low bytes the same. -/
theorem Memory.SameLowBytes.write {m n : Memory} (h : Memory.SameLowBytes m n) (i : Nat) (v : Byte) :
    Memory.SameLowBytes (Memory.write m i v) (Memory.write n i v) := by
  intro j hj
  rw [Memory.read_write, Memory.read_write, h j hj]

/-- Pushing the same bytes on both keeps the low bytes the same. -/
theorem Memory.SameLowBytes.pushMemory {m n : Memory} (h : Memory.SameLowBytes m n) (sp : Word) (bs : List Byte) :
    Memory.SameLowBytes (pushMemory m sp bs) (pushMemory n sp bs) := by
  induction bs generalizing m n sp with
  | nil => exact h
  | cons b bs ih => exact ih (h.write _ _) _

/-- The state with its memory replaced. -/
def State.setMem (s : State) (m : Memory) : State := { s with mem := m }

@[simp] theorem State.setMem_cc (s : State) (m : Memory) : (s.setMem m).cc = s.cc := rfl
@[simp] theorem State.base_setMem (s : State) (m : Memory) (r : BaseReg) : (s.setMem m).base r = s.base r := by
  cases r <;> rfl

theorem State.readByte_setMem {s : State} {m : Memory} (h : Memory.SameLowBytes s.mem m) (a : Word) :
    (s.setMem m).readByte a = s.readByte a := h a.toNat a.isLt

theorem State.readWord_setMem {s : State} {m : Memory} (h : Memory.SameLowBytes s.mem m) (a : Word) :
    (s.setMem m).readWord a = s.readWord a := by
  rw [State.readWord, State.readWord, State.readByte_setMem h, State.readByte_setMem h]

/-- The two states have the same registers and the same bytes at the 16-bit addresses. -/
structure AgreeBelow64K (s s' : State) : Prop where
  state : s' = s.setMem s'.mem
  bytes : Memory.SameLowBytes s.mem s'.mem

/-- The agreement, register by register and byte by byte. -/
theorem agreeBelow64K_iff (s s' : State) :
    AgreeBelow64K s s' ↔ SameRegisters s s' ∧ s'.pc = s.pc ∧ s'.cc = s.cc ∧
      ∀ i, i < 65536 → Memory.read s'.mem i = Memory.read s.mem i := by
  constructor
  · rintro ⟨hstate, hbytes⟩
    rw [hstate]
    exact ⟨⟨rfl, rfl, rfl, rfl, rfl, rfl, rfl⟩, rfl, rfl, hbytes⟩
  · rintro ⟨⟨ha, hb, hdp, hx, hy, hu, hs⟩, hpc, hcc, hbytes⟩
    refine ⟨?_, hbytes⟩
    cases s'
    simp_all only [State.setMem]

/-! ## The operand stages -/

/-- The address of a sub-mode does not depend on memory. -/
theorem subModeAddress_setMem (base : PcrBase) (r : BaseReg) (sub : SubMode) (s : State) (m : Memory) :
    subModeAddress base r sub (s.setMem m) = subModeAddress base r sub s := by
  cases sub <;> simp only [subModeAddress, State.base_setMem] <;> rfl

/-- The write-back neither reads nor writes memory. -/
theorem writeBack_setMem (r : BaseReg) (indirect : Bool) (sub : SubMode) (s : State) (m : Memory) :
    writeBack r indirect sub (s.setMem m) = (writeBack r indirect sub s).setMem m := by
  have hbase : ∀ v, (s.setMem m).setBase r v = (s.setBase r v).setMem m := fun v => by cases r <;> rfl
  simp only [writeBack, State.base_setMem, hbase]
  split <;> rfl

/-- The Indexed resolver reads the pointer at 16-bit addresses and writes no memory. -/
theorem resolveIndexed_setMem (base : PcrBase) (ix : Indexed) {s : State} {m : Memory}
    (h : Memory.SameLowBytes s.mem m) :
    resolveIndexed base ix (s.setMem m) = ((resolveIndexed base ix s).1, (resolveIndexed base ix s).2.setMem m) := by
  cases ix with
  | offset5 r off => simp only [resolveIndexed, State.base_setMem]
  | mode r indirect sub =>
    simp only [resolveIndexed, subModeAddress_setMem, State.readWord_setMem h, writeBack_setMem]

/-- An operand stage gives the same operand over a memory with the same low bytes, and writes no memory. -/
theorem OperandForm.stage_setMem (form : OperandForm) {s : State} {m : Memory} (h : Memory.SameLowBytes s.mem m) :
    form.stage (s.setMem m) = ((form.stage s).1, (form.stage s).2.setMem m) := by
  cases form with
  | indexed ix => simp only [OperandForm.stage, indexedStage, resolveIndexed_setMem pcrBase ix h]; rfl
  | direct | extended | immediate => rfl

/-- No operand stage writes memory. -/
theorem OperandForm.stage_mem (form : OperandForm) (s : State) : (form.stage s).2.mem = s.mem := by
  cases form with
  | indexed ix => exact (indexedStage_stage ix s).mem
  | direct | extended | immediate => rfl

/-! ## The operations and the trap entry -/

/-- An operation reads and writes memory at 16-bit addresses only. -/
theorem Operation.Used.run_agreeBelow64K {op : Operation} (hop : op.Used) (ea : Word) {s : State} {m : Memory}
    (h : Memory.SameLowBytes s.mem m) : AgreeBelow64K (op.run (ea, s)) (op.run (ea, s.setMem m)) := by
  have hbyte := State.readByte_setMem h ea
  have hword := State.readWord_setMem h ea
  cases hop with
  | @store f =>
    have hrun : rmwAt f ea (s.setMem m) =
        (rmwAt f ea s).setMem (Memory.write m ea.toNat (f (s.readByte ea) s.cc).1) := by
      simp only [rmwAt_eq, hbyte]
      rfl
    simp only [Operation.run, hrun]
    exact ⟨rfl, h.write _ _⟩
  | test =>
    simp only [Operation.run, testAt_eq, hbyte]
    exact ⟨rfl, h⟩
  | jump => exact ⟨rfl, h⟩
  | branch =>
    simp only [Operation.run]
    rw [State.setMem_cc]
    split
    · exact ⟨rfl, h⟩
    · exact ⟨rfl, h⟩
  | compareValueD | compareValueY => exact ⟨rfl, h⟩
  | compareMemoryD | compareMemoryY =>
    simp only [Operation.run, Machine.compareMemory, hword]
    exact ⟨rfl, h⟩

/-- The trap entry pushes at 16-bit addresses, and reads the vector there after the pushes. -/
theorem enterTrap_agreeBelow64K (vector : Word) {s : State} {m : Memory} (h : Memory.SameLowBytes s.mem m) :
    AgreeBelow64K (enterTrap vector s) (enterTrap vector (s.setMem m)) := by
  have hpushed : Memory.SameLowBytes (stackFrame s).mem (stackFrame (s.setMem m)).mem := h.pushMemory _ _
  have hframe : stackFrame (s.setMem m) = (stackFrame s).setMem (stackFrame (s.setMem m)).mem := rfl
  refine ⟨?_, hpushed⟩
  rw [enterTrap, hframe, State.readWord_setMem hpushed]
  rfl

/-- Every instruction takes states that agree below 65536 to such states. -/
theorem exec_agreeBelow64K {i : Instr} {s s' t : State} (h : AgreeBelow64K s s') (ht : exec i s = .next t) :
    ∃ t', exec i s' = .next t' ∧ AgreeBelow64K t t' := by
  obtain ⟨hstate, hbytes⟩ := h
  by_cases hi : i = .swi3
  · subst hi
    cases ht
    rw [hstate]
    exact ⟨_, rfl, enterTrap_agreeBelow64K swi3Vector hbytes⟩
  · obtain ⟨form, op, hop, hexec⟩ := exec_eq_run_stage hi
    rw [hexec] at ht
    cases ht
    refine ⟨_, hexec s', ?_⟩
    rw [hstate, form.stage_setMem hbytes]
    exact hop.run_agreeBelow64K _ (form.stage_mem s ▸ hbytes)

/-! ## The step -/

/-- The instruction stream is read at 16-bit addresses. -/
theorem AgreeBelow64K.instructionStream_eq {s s' : State} (h : AgreeBelow64K s s') :
    instructionStream s' = instructionStream s := by
  funext k
  rw [h.state]
  exact State.readByte_setMem h.bytes _

/-- Passing the opcode bytes keeps the agreement. -/
theorem AgreeBelow64K.afterOpcode {s s' : State} (h : AgreeBelow64K s s') :
    AgreeBelow64K (afterOpcode s) (afterOpcode s') := by
  rw [Machine.afterOpcode, Machine.afterOpcode, h.instructionStream_eq, h.state]
  exact ⟨rfl, h.bytes⟩

/-- A fault depends on the instruction stream alone, so states that agree below 65536 fault alike. -/
theorem AgreeBelow64K.step_fault {s s' : State} (h : AgreeBelow64K s s') {r : Fault} (hr : step s = .fault r) :
    step s' = .fault r := by
  rcases step_cases s with ⟨i, -, hs⟩ | ⟨page, op, hd, hs⟩ | ⟨pb, hd, hs⟩
  · obtain ⟨t, ht, -⟩ := exec_cases i (Machine.afterOpcode s)
    rw [hs, ht] at hr
    cases hr
  · rw [← h.instructionStream_eq] at hd
    rw [step_of_unassigned hd, ← hs, hr]
  · rw [← h.instructionStream_eq] at hd
    rw [step_of_invalidPostbyte hd, ← hs, hr]

/-- A step that completes completes from every state that agrees below 65536, and the agreement lasts. -/
theorem AgreeBelow64K.step_next {s s' t : State} (h : AgreeBelow64K s s') (ht : step s = .next t) :
    ∃ t', step s' = .next t' ∧ AgreeBelow64K t t' := by
  obtain ⟨i, hd, hi⟩ := Machine.step_next ht
  obtain ⟨t', hi', hagree⟩ := exec_agreeBelow64K h.afterOpcode hi
  rw [← h.instructionStream_eq] at hd
  exact ⟨t', (step_of_decode hd).trans hi', hagree⟩

/-- Settles O22: every write is at a 16-bit address, and a step depends on no other byte. -/
theorem stepsIgnoreMemoryAbove64K : Obligations.StepsIgnoreMemoryAbove64K := by
  unfold Obligations.StepsIgnoreMemoryAbove64K
  refine ⟨fun s t h j hj => ?frame, fun s s' hregs hpc hcc hbytes => ?twoRuns⟩
  case frame =>
    obtain ⟨i, -, hi⟩ := step_next h
    exact exec_keeps_read_above64K (s := afterOpcode s) hi hj
  case twoRuns =>
    have h : AgreeBelow64K s s' := (agreeBelow64K_iff s s').mpr ⟨hregs, hpc, hcc, hbytes⟩
    refine ⟨fun r hr => h.step_fault hr, fun t ht => ?_⟩
    obtain ⟨t', ht', hagree⟩ := h.step_next ht
    exact ⟨t', ht', (agreeBelow64K_iff t t').mp hagree⟩

end Sys2Proof.Machine
end

section
/-! The decoder against the encoder and the opcode table (30_encoding.md): every encoding decodes back, the two ways a
stream is rejected, the one-level page dispatch, and the lengths of the encodings. -/

namespace Sys2Proof

open Sys2Proof.Machine (BeginsWith AssignedOpcode IndexedOpcode InvalidPostbyte)

/-! ## Every encoding decodes back (30_encoding.md R81) -/

section
open Laws.DecodesBack

/-- The per-instruction round trips of Laws, in the order of the constructors, cover the instruction set. -/
theorem decode_of_beginsWith_encode (i : Instr) : Statement i :=
  Instr.casesOn (motive := Statement) i
    negDirect negIndexed negExtended comDirect comIndexed comExtended lsrDirect lsrIndexed lsrExtended
    rorDirect rorIndexed rorExtended asrDirect asrIndexed asrExtended aslDirect aslIndexed aslExtended
    rolDirect rolIndexed rolExtended decDirect decIndexed decExtended incDirect incIndexed incExtended
    tstDirect tstIndexed tstExtended clrDirect clrIndexed clrExtended jmpDirect jmpIndexed jmpExtended
    lbrn lbhi lbls lbcc lbcs lbne lbeq lbvc lbvs lbpl lbmi lbge lblt lbgt lble swi3
    cmpdImmediate cmpdDirect cmpdIndexed cmpdExtended cmpyImmediate cmpyDirect cmpyIndexed cmpyExtended

end

/-- Settles O1: each constructor's round trip is the one of its format. -/
theorem encodedInstructionDecodesBack : Obligations.EncodedInstructionDecodesBack := by
  unfold Obligations.EncodedInstructionDecodesBack
  exact decode_of_beginsWith_encode

/-- A sequence that is the encoding of a well-formed instruction decodes to it, with zeros behind it. -/
theorem decode_streamOf {bs : List Byte} {i : Instr} (henc : encode i = bs) (hwf : i.wf = true) :
    decode (streamOf bs) = .ok i :=
  decode_of_beginsWith_encode i hwf (streamOf bs) fun _ _ => by rw [henc, streamOf]

/-- Settles O3: each of the twelve sequences is the encoding of its instruction. -/
theorem workedEncodingsDecode : Obligations.WorkedEncodingsDecode := by
  unfold Obligations.WorkedEncodingsDecode
  refine ⟨?_, ?_, ?_, ?_, ?_, ?_, ?_, ?_, ?_, ?_, ?_, ?_⟩ <;> exact decode_streamOf rfl rfl

/-! ## The two ways a stream is rejected (30_encoding.md R90, R92) -/

/-- An Indexed operand is rejected for its postbyte alone. -/
theorem decodeIndexed_eq_error {st : Nat → Byte} {r : Reject} :
    decodeIndexed st = .error r ↔ InvalidPostbyte (st 0).toNat ∧ r = .invalidPostbyte (st 0) := by
  rw [← subModeOfCode_eq_none (st 0) st]
  unfold decodeIndexed
  by_cases h7 : (st 0).getLsbD 7 = true
  · rw [if_pos h7]
    cases subModeOfCode ((st 0).extractLsb' 0 4) st with
    | some m => simp only [reduceCtorEq, and_false, false_and]
    | none => simp only [h7, Except.error.injEq, true_and, eq_comm]
  · rw [if_neg h7]
    simp only [h7, reduceCtorEq, false_and]

/-- Only an Indexed operand is rejected. -/
theorem decodeOperand_eq_error {e : Entry} {st : Nat → Byte} {r : Reject} :
    decodeOperand e st = .error r ↔ e.isIndexed = true ∧ decodeIndexed st = .error r := by
  cases e with
  | indexed mk => cases h : decodeIndexed st <;> simp [decodeOperand, Entry.isIndexed, Except.map, h]
  | direct | extended | immediate | inherent => simp [decodeOperand, Entry.isIndexed]

/-- A stream is rejected for an opcode without an entry, or for the postbyte after an Indexed opcode. -/
theorem decode_eq_error {st : Nat → Byte} {r : Reject} :
    decode st = .error r ↔
      (¬ AssignedOpcode (opcodePage st) (opcodeByte st).toNat ∧ r = .unassigned (opcodePage st) (opcodeByte st)) ∨
      (IndexedOpcode (opcodePage st) (opcodeByte st).toNat ∧ InvalidPostbyte (st (opcodePage st).opcodeBytes).toNat ∧
        r = .invalidPostbyte (st (opcodePage st).opcodeBytes)) := by
  rw [← lookupOpcode_eq_none, ← lookupOpcode_isIndexed, decode]
  cases lookupOpcode (opcodePage st) (opcodeByte st) with
  | none => simp [eq_comm]
  | some e => simp [decodeOperand_eq_error, decodeIndexed_eq_error]

/-- Settles O4: of the two rejections, the first. -/
theorem unassignedOpcodesAreRejected : Obligations.UnassignedOpcodesAreRejected := by
  unfold Obligations.UnassignedOpcodesAreRejected
  intro st page op
  rw [decode_eq_error]
  constructor
  · rintro (⟨hop, h⟩ | ⟨-, -, h⟩)
    · cases h; exact ⟨rfl, rfl, hop⟩
    · cases h
  · rintro ⟨rfl, rfl, hop⟩
    exact .inl ⟨hop, rfl⟩

/-- Settles O5: of the two rejections, the second. -/
theorem invalidPostbytesAreRejected : Obligations.InvalidPostbytesAreRejected := by
  unfold Obligations.InvalidPostbytesAreRejected
  intro st pb
  rw [decode_eq_error]
  constructor
  · rintro (⟨-, h⟩ | ⟨hop, hpb, h⟩)
    · cases h
    · cases h; exact ⟨hop, rfl, hpb⟩
  · rintro ⟨hop, rfl, hpb⟩
    exact .inr ⟨hop, hpb, rfl⟩

/-! ## The page dispatch (30_encoding.md R82) -/

/-- Behind the page byte the second byte is looked up on page 2. -/
theorem opcode_of_pageTwoByte {st : Nat → Byte} (h : st 0 = pageTwoByte) :
    opcodePage st = .two ∧ opcodeByte st = st 1 := by
  have hpage : opcodePage st = .two := if_pos h
  exact ⟨hpage, by rw [opcodeByte, hpage]⟩

/-- Any other first byte is looked up on page 1. -/
theorem opcode_of_ne_pageTwoByte {st : Nat → Byte} (h : st 0 ≠ pageTwoByte) :
    opcodePage st = .one ∧ opcodeByte st = st 0 := by
  have hpage : opcodePage st = .one := if_neg h
  exact ⟨hpage, by rw [opcodeByte, hpage]⟩

/-- Settles O14: 0x10 on page 2 and 0x11 on page 1 are unassigned opcodes. -/
theorem pageDispatchIsOneLevel : Obligations.PageDispatchIsOneLevel := by
  unfold Obligations.PageDispatchIsOneLevel
  refine fun st => ⟨opcode_of_pageTwoByte, fun h0 h1 => ?pageTwo, fun h0 => ?pageOne⟩
  case pageTwo =>
    obtain ⟨hpage, hbyte⟩ := opcode_of_pageTwoByte h0
    have hop : ¬ AssignedOpcode .two 0x10 := by unfold AssignedOpcode; decide
    exact (unassignedOpcodesAreRejected st .two 0x10#8).mpr ⟨hpage, hbyte.trans h1, hop⟩
  case pageOne =>
    obtain ⟨hpage, hbyte⟩ := opcode_of_ne_pageTwoByte (by rw [h0]; decide : st 0 ≠ pageTwoByte)
    have hop : ¬ AssignedOpcode .one 0x11 := by unfold AssignedOpcode; decide
    exact (unassignedOpcodesAreRejected st .one 0x11#8).mpr ⟨hpage, hbyte.trans h0, hop⟩

/-! ## Lengths (30_encoding.md R80, R89) -/

/-- An Indexed operand is the postbyte and at most two offset bytes (30_encoding.md R87, R88). -/
theorem Indexed.bytes_length_bounds (ix : Indexed) : 1 ≤ ix.bytes.length ∧ ix.bytes.length ≤ 3 := by
  cases ix with
  | offset5 r off => exact ⟨le_rfl, Nat.le_add_left 1 2⟩
  | mode r indirect m => cases m <;> simp [Indexed.bytes, SubMode.offsetBytes, wordBytes]

/-- An encoding is one or two opcode bytes and the operand bytes of its format (30_encoding.md R81). -/
theorem encode_length_bounds (i : Instr) : 2 ≤ (encode i).length ∧ (encode i).length ≤ 5 := by
  cases i with
  | negIndexed ix | comIndexed ix | lsrIndexed ix | rorIndexed ix | asrIndexed ix | aslIndexed ix | rolIndexed ix
  | decIndexed ix | incIndexed ix | tstIndexed ix | clrIndexed ix | jmpIndexed ix | cmpdIndexed ix | cmpyIndexed ix =>
    obtain ⟨hmin, hmax⟩ := ix.bytes_length_bounds
    simp only [encode, List.length_cons]
    omega
  | _ => simp [encode, wordBytes]

/-- Settles O6: SWI3 has the shortest encoding, CMPY with a 16-bit Indexed offset the longest, and the indirect flag is a
bit of the postbyte. -/
theorem instructionLengths : Obligations.InstructionLengths := by
  unfold Obligations.InstructionLengths
  exact ⟨encode_length_bounds, ⟨.swi3, rfl⟩, ⟨.cmpyIndexed (.mode .x false (.offset16 0x0100)), rfl⟩, fun _ _ => rfl⟩

end Sys2Proof
end

section
/-! The address calculator (40_addressing.md): the address of each resolver as arithmetic modulo 65536, the bytes it
consumes, and the base register it writes back. -/

namespace Sys2Proof.Machine

/-! ## Direct, Immediate and Extended (40_addressing.md R111 to R113) -/

/-- Settles O33: the address is the joined word. -/
theorem directOperandAddress : Obligations.DirectOperandAddress := by
  unfold Obligations.DirectOperandAddress
  exact fun dd s => ⟨rfl, joinBytes_toNat s.dp dd, rfl, rfl⟩

/-- Settles O34: each resolver and each stage is its equation. -/
theorem immediateAndExtendedOperands : Obligations.ImmediateAndExtendedOperands := by
  unfold Obligations.ImmediateAndExtendedOperands
  exact fun w s => ⟨rfl, rfl, rfl, rfl⟩

/-! ## The offset forms (40_addressing.md R115, R120 to R127) -/

/-- Settles O35: the offset is added as an integer modulo 65536. -/
theorem fiveBitOffsetAddress : Obligations.FiveBitOffsetAddress := by
  unfold Obligations.FiveBitOffsetAddress
  exact fun base r off s => ⟨rfl, add_ofInt_toNat (s.base r) off, rfl⟩

/-- A sub-mode that is no auto mode, with its address as a word plus an integer: the sum is taken modulo 65536, and no
register is written (40_addressing.md R132). -/
theorem resolveIndexed_offset {base : PcrBase} {r : BaseReg} {m : SubMode} {s : State} {w : Word} {k : Int}
    (hm : m ∉ [SubMode.postInc1, .postInc2, .preDec1, .preDec2])
    (haddress : subModeAddress base r m s = w + BitVec.ofInt 16 k) :
    (resolveIndexed base (.mode r false m) s).1.consumed = subModeBytes m ∧
    (((resolveIndexed base (.mode r false m) s).1.value.toNat : Int) = (w.toNat + k) % 65536) ∧
    (resolveIndexed base (.mode r false m) s).2 = s :=
  ⟨rfl, (congrArg (fun a : Word => (a.toNat : Int)) haddress).trans (add_ofInt_toNat w k),
    writeBack_of_not_auto hm r false s⟩

/-- D is the word of the number A : B, read as unsigned (10_state.md R22). -/
theorem State.d_eq_ofInt (s : State) : s.d = BitVec.ofInt 16 ((s.a.toNat * 256 + s.b.toNat : Nat) : Int) :=
  (BitVec.ofInt_natCast 16 _).symm

/-- Settles O37: the offset each sub-mode adds to the register is the word of the integer the statement lists. -/
theorem offsetSubModeAddresses : Obligations.OffsetSubModeAddresses := by
  unfold Obligations.OffsetSubModeAddresses
  intro base r s oo off m n offset hm
  simp only [List.mem_cons, List.not_mem_nil, or_false, Prod.mk.injEq] at hm
  rcases hm with ⟨rfl, rfl, rfl⟩ | ⟨rfl, rfl, rfl⟩ | ⟨rfl, rfl, rfl⟩ |
    ⟨rfl, rfl, rfl⟩ | ⟨rfl, rfl, rfl⟩ | ⟨rfl, rfl, rfl⟩
  · exact resolveIndexed_offset (by simp) (BitVec.add_zero (s.base r)).symm
  · exact resolveIndexed_offset (by simp) (congrArg (s.base r + ·) (signExtendByte_eq_ofInt s.b))
  · exact resolveIndexed_offset (by simp) (congrArg (s.base r + ·) (signExtendByte_eq_ofInt s.a))
  · exact resolveIndexed_offset (by simp) (congrArg (s.base r + ·) (signExtendByte_eq_ofInt oo))
  · exact resolveIndexed_offset (by simp) (congrArg (s.base r + ·) BitVec.ofInt_toInt.symm)
  · exact resolveIndexed_offset (by simp) (congrArg (s.base r + ·) s.d_eq_ofInt)

/-- How far the base of the PC-relative sub-modes is from the postbyte, `n` the bytes consumed (40_addressing.md R126). -/
def pcRelativeDistance (base : PcrBase) (n : Nat) : Nat :=
  match base with
  | .entry => 0
  | .afterPostbyte => 1
  | .nextInstruction => n

/-- The base of the PC-relative sub-modes is the address of the postbyte moved by that distance. -/
theorem pcRelativeBase_toNat (base : PcrBase) (p : Word) (n : Nat) :
    (pcRelativeBase base p n).toNat = (p.toNat + pcRelativeDistance base n) % 65536 := by
  cases base with
  | entry => exact (Nat.mod_eq_of_lt p.isLt).symm
  | afterPostbyte => exact advanceWord_toNat p 1
  | nextInstruction => exact advanceWord_toNat p n

/-- The PC-relative sub-modes, with the offset as an integer (40_addressing.md R126, R127). -/
theorem resolveIndexed_pcRelative {base : PcrBase} {r : BaseReg} {m : SubMode} {s : State} {n : Nat} {k : Int}
    (hm : m ∉ [SubMode.postInc1, .postInc2, .preDec1, .preDec2])
    (haddress : subModeAddress base r m s = pcRelativeBase base s.pc n + BitVec.ofInt 16 k) :
    (resolveIndexed base (.mode r false m) s).1.consumed = subModeBytes m ∧
    (((resolveIndexed base (.mode r false m) s).1.value.toNat : Int) =
      (s.pc.toNat + pcRelativeDistance base n + k) % 65536) ∧
    (resolveIndexed base (.mode r false m) s).2 = s := by
  obtain ⟨hconsumed, hvalue, hstate⟩ := resolveIndexed_offset hm haddress
  refine ⟨hconsumed, ?_, hstate⟩
  rw [hvalue, pcRelativeBase_toNat]
  push_cast
  exact Int.emod_add_emod _ _ _

/-- Settles O38: of each value of PCR_BASE the distance is the one the statement writes out. -/
theorem pcRelativeAddresses : Obligations.PcRelativeAddresses := by
  unfold Obligations.PcRelativeAddresses
  intro base r s oo off m n offset hm
  simp only [List.mem_cons, List.not_mem_nil, or_false, Prod.mk.injEq] at hm
  rcases hm with ⟨rfl, rfl, rfl⟩ | ⟨rfl, rfl, rfl⟩
  · have h := resolveIndexed_pcRelative (base := base) (r := r) (m := .pcr8 oo) (s := s) (by simp)
      (congrArg (pcRelativeBase base s.pc 2 + ·) (signExtendByte_eq_ofInt oo))
    cases base <;> exact h
  · have h := resolveIndexed_pcRelative (base := base) (r := r) (m := .pcr16 off) (s := s) (by simp)
      (congrArg (pcRelativeBase base s.pc 3 + ·) BitVec.ofInt_toInt.symm)
    cases base <;> exact h

/-! ## The auto sub-modes (40_addressing.md R116 to R119, R130) -/

/-- A word moved back, modulo 65536 (40_addressing.md R132). -/
theorem sub_ofNat_toNat (w : Word) {n : Nat} (h : n < 65536) :
    (w - BitVec.ofNat 16 n).toNat = (w.toNat + (65536 - n)) % 65536 := by
  rw [BitVec.toNat_sub, BitVec.toNat_ofNat, Nat.mod_eq_of_lt h, Nat.add_comm]

/-- With the indirect flag clear, the value a sub-mode writes back goes to the base register and nowhere else. -/
theorem resolveIndexed_auto {base : PcrBase} {r : BaseReg} {m : SubMode} {s : State} {v : Word}
    (hv : subModeWriteBack m (s.base r) = some v) :
    resolveIndexed base (.mode r false m) s = (⟨subModeBytes m, subModeAddress base r m s⟩, s.setBase r v) := by
  simp [resolveIndexed, writeBack, hv]

/-- The same, with the address and the written value as numbers. -/
theorem resolveIndexed_auto_toNat {base : PcrBase} {r : BaseReg} {m : SubMode} {s : State} {v : Word}
    {address written : Nat} (hv : subModeWriteBack m (s.base r) = some v)
    (haddress : (subModeAddress base r m s).toNat = address) (hwritten : v.toNat = written) :
    (resolveIndexed base (.mode r false m) s).1.consumed = subModeBytes m ∧
    (resolveIndexed base (.mode r false m) s).1.value.toNat = address ∧
    ((resolveIndexed base (.mode r false m) s).2.base r).toNat = written ∧
    (resolveIndexed base (.mode r false m) s).2 =
      s.setBase r ((resolveIndexed base (.mode r false m) s).2.base r) := by
  rw [resolveIndexed_auto hv, State.base_setBase_same]
  exact ⟨rfl, haddress, hwritten, rfl⟩

/-- Settles O36: an increment answers the old value, a decrement the value it writes back. -/
theorem autoSubModesStepTheBaseRegister : Obligations.AutoSubModesStepTheBaseRegister := by
  unfold Obligations.AutoSubModesStepTheBaseRegister
  intro base r s m address written hm
  have hdec1 : (s.base r - 1#16).toNat = ((s.base r).toNat + 65535) % 65536 := sub_ofNat_toNat _ (by decide)
  have hdec2 : (s.base r - 2#16).toNat = ((s.base r).toNat + 65534) % 65536 := sub_ofNat_toNat _ (by decide)
  simp only [List.mem_cons, List.not_mem_nil, or_false, Prod.mk.injEq] at hm
  rcases hm with ⟨rfl, ha, hw⟩ | ⟨rfl, ha, hw⟩ | ⟨rfl, ha, hw⟩ | ⟨rfl, ha, hw⟩
  · exact resolveIndexed_auto_toNat rfl ha.symm ((advanceWord_toNat (s.base r) 1).trans hw.symm)
  · exact resolveIndexed_auto_toNat rfl ha.symm ((advanceWord_toNat (s.base r) 2).trans hw.symm)
  · exact resolveIndexed_auto_toNat rfl (hdec1.trans ha.symm) (hdec1.trans hw.symm)
  · exact resolveIndexed_auto_toNat rfl (hdec2.trans ha.symm) (hdec2.trans hw.symm)

/-! ## The indirect flag (40_addressing.md R129, R131) -/

/-- Settles O39: the flag puts one read after the address, and the write-back it drops is the only one. -/
theorem indirectFlagReadsThePointer : Obligations.IndirectFlagReadsThePointer := by
  unfold Obligations.IndirectFlagReadsThePointer
  exact fun base r m s => ⟨rfl, rfl, writeBack_indirect r m s⟩

end Sys2Proof.Machine
end

section
/-! The arithmetic primitives (41_alu_primitives.md): two's complement as negation modulo the width, and what both adders
raise in CC. -/

namespace Sys2Proof.Machine

/-! ## Two's complement (41_alu_primitives.md R150) -/

/-- Settles O31: complement plus one is the bit vectors' negation; the corner cases are closed values. -/
theorem twosComplementIsNegation : Obligations.TwosComplementIsNegation := by
  unfold Obligations.TwosComplementIsNegation
  refine ⟨fun v => ?_, fun v => ?_, by decide⟩
  · rw [twosComplement8_eq_neg, BitVec.toNat_neg]
  · rw [twosComplement16_eq_neg, BitVec.toNat_neg]

/-! ## The adder (41_alu_primitives.md R153 to R155) -/

/-- What the adder raises in each flag, given what it raises in H, C and V. -/
def adderRaises (half carry overflow : Bool) : Flag → Bool
  | .H => half
  | .C => carry
  | .V => overflow
  | _ => false

/-- The three raises of either adder, on any conditions, keep a flag that was set and touch no flag but H, C and V. -/
theorem getFlag_raiseFlag_V_C_H (f : Flag) (half carry overflow p q r : Bool) (cc : Byte) :
    getFlag f (raiseFlag .V overflow r (raiseFlag .C carry q (raiseFlag .H half p cc))) =
      (getFlag f cc || adderRaises (half && p) (carry && q) (overflow && r) f) := by
  cases f <;> simp [adderRaises]

/-- Settles O32: each adder is the bit vectors' sum beside the three raises, on the carries of its width. -/
theorem adderRaisesFlags : Obligations.AdderRaisesFlags := by
  unfold Obligations.AdderRaisesFlags
  refine ⟨fun a b h c v cc => ⟨?_, fun f => ?_⟩, fun a b h c v cc => ⟨?_, fun f => ?_⟩⟩
  · rw [binaryAdd8_value, BitVec.toNat_add]
  · refine (getFlag_raiseFlag_V_C_H f h c v _ _ _ cc).trans ?_
    cases f <;> rfl
  · rw [binaryAdd16_value, BitVec.toNat_add]
  · refine (getFlag_raiseFlag_V_C_H f h c v _ _ _ cc).trans ?_
    cases f <;> rfl

end Sys2Proof.Machine
end

section
/-! The engine (42_engine.md): the Indexed operand stage, the step of a decoded instruction, and the outcome of an
unassigned opcode. -/

namespace Sys2Proof.Machine

/-! ## The Indexed operand stage (42_engine.md R183) -/

/-- The advance of PC writes no base register, so each is as the resolver left it (40_addressing.md R130). -/
theorem indexedStage_base_eq_resolveIndexed (ix : Indexed) (s : State) {base : PcrBase} (r : BaseReg) :
    (indexedStage ix s base).2.base r = (resolveIndexed base ix s).2.base r :=
  State.base_advance (resolveIndexed base ix s).2 _ r

/-- PC after the stage, by the length of the operand's encoding, modulo 65536. -/
theorem indexedStage_pc_toNat (ix : Indexed) (s : State) {base : PcrBase} :
    (indexedStage ix s base).2.pc.toNat = (s.pc.toNat + ix.bytes.length) % 65536 := by
  rw [indexedStage_pc, advanceWord_toNat, Indexed.bytes_length]

/-- Settles O40: the stage is the resolver and the advance of PC, and the rest of the state is what every operand stage
keeps. -/
theorem indexedOperandStage : Obligations.IndexedOperandStage := by
  unfold Obligations.IndexedOperandStage
  intro ix s
  have hstage : StageOf s (indexedStage ix s).2 := indexedStage_stage ix s
  exact ⟨rfl, indexedStage_pc_toNat ix s, indexedStage_base_eq_resolveIndexed ix s, hstage.mem, hstage.cc, hstage.a,
    hstage.b, hstage.dp⟩

/-! ## The step of a decoded instruction (42_engine.md R180 to R184, R187) -/

/-- Settles O7: a decoded instruction completes, so the step answers what it answers. -/
theorem stepExecutesDecodedInstruction : Obligations.StepExecutesDecodedInstruction := by
  unfold Obligations.StepExecutesDecodedInstruction
  exact fun _ _ h => step_of_decode h

/-- Settles O8: each instruction's effect or trap entry is a next state. -/
theorem everyInstructionCompletes : Obligations.EveryInstructionCompletes := by
  unfold Obligations.EveryInstructionCompletes
  intro i s
  obtain ⟨t, ht, -⟩ := exec_cases i s
  exact ⟨t, ht⟩

/-! ## An unassigned opcode (42_engine.md R186) -/

/-- executeInstruction takes the model's UNASSIGNED_POLICY from the state past the opcode bytes. -/
theorem executeInstruction_of_unassigned {s : State} {page : Page} {op : Byte}
    (h : decode (instructionStream s) = .error (.unassigned page op)) :
    executeInstruction s = unassignedOutcome unassignedPolicy page op (afterOpcode s) := by
  rw [executeInstruction_eq, h]

/-- Settles O13: each policy's outcome is its own arm, and the step takes the model's policy. -/
theorem unassignedOpcodeOutcome : Obligations.UnassignedOpcodeOutcome := by
  unfold Obligations.UnassignedOpcodeOutcome
  exact ⟨fun _ _ _ => rfl, fun _ _ _ => rfl, fun _ _ _ h => executeInstruction_of_unassigned h⟩

end Sys2Proof.Machine
end

section
/-! The read-modify-write instructions (43_rmw.md): the result and the written flags of each byte transform as
arithmetic, and the one template that stores a result at the address the operand stage gave. -/

namespace Sys2Proof.Machine

/-! ## The template (43_rmw.md R200) -/

/-- A byte transform that writes no flag outside the list. -/
def WritesOnly (written : List Flag) (f : ByteTransform) : Prop :=
  ∀ v cc g, g ∉ written → getFlag g (f v cc).2 = getFlag g cc

/-- A transform that keeps one of C, V, Z and N writes the other three at most. -/
theorem WritesArithmeticFlags.writesOnly_erase {f : ByteTransform} (hf : WritesArithmeticFlags f) {kept : Flag}
    (hkept : ∀ v cc, getFlag kept (f v cc).2 = getFlag kept cc) : WritesOnly ([Flag.C, .V, .Z, .N].erase kept) f := by
  intro v cc g hg
  by_cases h : g = kept
  · rw [h, hkept]
  · exact hf v cc g fun hmem => hg ((List.mem_erase_of_ne h).mpr hmem)

/-- The template stores the transform's result and writes the transform's flags, and changes nothing else. -/
theorem rmwAt_completesStoring {f : ByteTransform} {written : List Flag} (hf : WritesOnly written f) {s : State}
    {ea : Word} {flags : State → Prop} (h : flags (rmwAt f ea s)) :
    CompletesStoring s ea (.next (rmwAt f ea s)) (f (s.readByte ea) s.cc).1 written flags :=
  ⟨_, rfl, Memory.read_write_same _ _ _, h, hf _ _, rfl, ⟨rfl, rfl, rfl, rfl, rfl, rfl, rfl⟩,
    fun _ hi => Memory.read_write_other _ _ hi⟩

/-- The template without its write changes the transform's flags alone. -/
theorem testAt_completesWithFlags {f : ByteTransform} {written : List Flag} (hf : WritesOnly written f) {s : State}
    {ea : Word} {flags : State → Prop} (h : flags (testAt f ea s)) :
    CompletesWithFlags s (.next (testAt f ea s)) written flags :=
  ⟨_, rfl, h, hf _ _, rfl, ⟨rfl, rfl, rfl, rfl, rfl, rfl, rfl⟩, fun _ => rfl⟩

/-- What holds of one run after every operand stage holds of the three forms that make that run. -/
theorem inThreeForms_of_run {direct : Byte → Instr} {indexed : Indexed → Instr} {extended : Word → Instr}
    {P : State → Word → StepOutcome → Prop} (run : Word → State → State)
    (h : ∀ s ea, P s ea (.next (run ea s)))
    (hdirect : ∀ dd s, exec (direct dd) s = .next (run (directStage dd s).1 (directStage dd s).2) := by intros; rfl)
    (hindexed : ∀ ix s, exec (indexed ix) s = .next (run (indexedStage ix s).1 (indexedStage ix s).2) := by
      intros; rfl)
    (hextended : ∀ ea s, exec (extended ea) s = .next (run (extendedStage ea s).1 (extendedStage ea s).2) := by
      intros; rfl) :
    InThreeForms direct indexed extended P := by
  intro s
  refine ⟨fun dd => ?_, fun ix => ?_, fun ea => ?_⟩
  · rw [hdirect]; exact h _ _
  · rw [hindexed]; exact h _ _
  · rw [hextended]; exact h _ _

/-! ## Bits of a byte as arithmetic -/

/-- Bit 0 says that the byte is odd. -/
theorem getLsbD_zero_eq (v : Byte) : v.getLsbD 0 = decide (v.toNat % 2 = 1) := Nat.testBit_zero _

/-- Bit 7 says that the byte is 128 or more. -/
theorem getLsbD_seven_eq (v : Byte) : v.getLsbD 7 = decide (128 ≤ v.toNat) := isNegative8_eq v

/-- Bits 7 and 6 differ exactly from 0x40 to 0xBF (43_rmw.md R206). -/
theorem xor_getLsbD_seven_six (v : Byte) :
    Bool.xor (v.getLsbD 7) (v.getLsbD 6) = decide (64 ≤ v.toNat ∧ v.toNat < 192) := by
  have hv : v.toNat < 256 := v.isLt
  have hsix : v.getLsbD 6 = decide (v.toNat / 64 % 2 = 1) := Nat.testBit_eq_decide_div_mod_eq
  rw [getLsbD_seven_eq, hsix, Bool.eq_iff_iff]
  simp only [bne_iff_ne, ne_eq, decide_eq_decide, decide_eq_true_eq]
  omega

/-- Equality with a byte, by the numbers. -/
theorem beq_eq_decide_toNat (v k : Byte) : (v == k) = decide (v.toNat = k.toNat) := by
  rw [Bool.eq_iff_iff, beq_iff_eq, decide_eq_true_eq, BitVec.toNat_eq]

/-- The low seven bits are all set when the byte is 127 modulo 128 (43_rmw.md R209). -/
theorem and_0x7F_beq_eq (v : Byte) : (v &&& 0x7F#8 == 0x7F#8) = decide (v.toNat % 128 = 127) := by
  rw [beq_eq_decide_toNat, BitVec.toNat_and]
  exact congrArg (fun n => decide (n = 127)) (Nat.and_two_pow_sub_one_eq_mod v.toNat 7)

/-- Half of a byte with a bit put in on top (43_rmw.md R204). -/
theorem half_with_top_bit_toNat (top : Bool) (v : Byte) :
    ((if top then 0x80#8 else 0x00#8) ||| (v >>> 1)).toNat = (if top then 128 else 0) + v.toNat / 2 := by
  have hhalf : v.toNat / 2 < 2 ^ 7 := by have := v.isLt; omega
  have hor := Nat.two_pow_add_eq_or_of_lt hhalf 1
  cases top
  · simp [Nat.shiftRight_eq_div_pow]
  · simpa [Nat.shiftRight_eq_div_pow] using hor.symm

/-- Twice a byte, modulo 256. -/
theorem double_toNat (v : Byte) : (v <<< 1).toNat = 2 * v.toNat % 256 := by
  rw [BitVec.toNat_shiftLeft, Nat.shiftLeft_eq, Nat.mul_comm]

/-- Twice a byte with a bit put in at the bottom (43_rmw.md R207). -/
theorem double_with_bottom_bit_toNat (bottom : Bool) (v : Byte) :
    ((v <<< 1) ||| (if bottom then 0x01#8 else 0x00#8)).toNat = 2 * v.toNat % 256 + (if bottom then 1 else 0) := by
  have heven : 2 * v.toNat % 256 = 2 ^ 1 * (v.toNat % 128) := by omega
  rw [BitVec.toNat_or, double_toNat, heven]
  cases bottom
  · exact Nat.or_zero _
  · exact (Nat.two_pow_add_eq_or_of_lt (by decide) _).symm

/-- Z and N after they were assigned from a byte, as arithmetic (41_alu_primitives.md R152). -/
theorem setNZ8_Z_N (r cc : Byte) :
    getFlag .Z (setNZ8 r cc) = decide (r.toNat = 0) ∧ getFlag .N (setNZ8 r cc) = decide (128 ≤ r.toNat) := by
  simp [isZero8_eq, isNegative8_eq]

/-! ## NEG (43_rmw.md R201, R213) -/

/-- Every NEG_C_MODE gives the same byte. -/
theorem negByte_value (mode : NegCMode) (v cc : Byte) : (negByte mode v cc).1 = -v := by
  cases mode <;> exact twosComplement8_eq_neg v

/-- V, Z and N after NEG, the same for every NEG_C_MODE. -/
theorem negByte_V_Z_N (mode : NegCMode) (v cc : Byte) :
    getFlag .V (negByte mode v cc).2 = decide (v.toNat = 128) ∧
    getFlag .Z (negByte mode v cc).2 = decide ((negByte mode v cc).1.toNat = 0) ∧
    getFlag .N (negByte mode v cc).2 = decide (128 ≤ (negByte mode v cc).1.toNat) := by
  cases mode <;> simp [negByte, isZero8_eq, isNegative8_eq, beq_eq_decide_toNat]

/-- Settles O41: negation modulo 256, with C by the mode and V, Z and N whatever the mode. -/
theorem negResult : Obligations.NegResult := by
  unfold Obligations.NegResult
  refine ⟨fun mode v cc => ?carry, inThreeForms_of_run (rmwAt (negByte negCMode)) fun s ea =>
    ⟨_, ?value, rmwAt_completesStoring (negByte_flags _) ?flags⟩⟩
  case carry =>
    cases mode with
    | clear => simp [negByte]
    | borrow => rw [Bool.eq_iff_iff]; simp [negByte]
    | unchanged => simp [negByte]
  case value => rw [negByte_value, BitVec.toNat_neg]
  case flags =>
    obtain ⟨hV, hZ, hN⟩ := negByte_V_Z_N negCMode (s.readByte ea) s.cc
    exact ⟨hV, hZ, hN, rfl⟩

/-- Settles O42: the transform's byte is the bit vectors' negation, an involution that fixes 0x80. -/
theorem negTwiceIsIdentity : Obligations.NegTwiceIsIdentity := by
  unfold Obligations.NegTwiceIsIdentity
  intro mode v cc cc'
  rw [negByte_value, negByte_value, negByte_value]
  exact ⟨neg_neg v, rfl⟩

/-! ## COM (43_rmw.md R202) -/

theorem comByte_C_V (v cc : Byte) :
    getFlag .C (comByte v cc).2 = true ∧ getFlag .V (comByte v cc).2 = false := by
  simp [comByte]

/-- Settles O43: the complement is 255 less the byte. -/
theorem comResult : Obligations.ComResult := by
  unfold Obligations.ComResult
  refine inThreeForms_of_run (rmwAt comByte) fun s ea =>
    ⟨_, BitVec.toNat_not, rmwAt_completesStoring comByte_flags ?_⟩
  obtain ⟨hC, hV⟩ := comByte_C_V (s.readByte ea) s.cc
  exact ⟨hC, hV, setNZ8_Z_N _ _⟩

/-! ## LSR, ROR and ASR (43_rmw.md R203 to R205): C takes bit 0 and V is not written -/

theorem lsrByte_V (v cc : Byte) : getFlag .V (lsrByte v cc).2 = getFlag .V cc := by simp [lsrByte]

theorem lsrByte_C_Z_N (v cc : Byte) :
    getFlag .C (lsrByte v cc).2 = decide (v.toNat % 2 = 1) ∧
    getFlag .Z (lsrByte v cc).2 = decide ((lsrByte v cc).1.toNat = 0) ∧ getFlag .N (lsrByte v cc).2 = false := by
  rw [← getLsbD_zero_eq]
  simp [lsrByte, isZero8_eq]

/-- Settles O44: the shifted byte is half of the byte. -/
theorem lsrResult : Obligations.LsrResult := by
  unfold Obligations.LsrResult
  exact inThreeForms_of_run (rmwAt lsrByte) fun s ea =>
    ⟨_, BitVec.toNat_ushiftRight _ _,
      rmwAt_completesStoring (lsrByte_flags.writesOnly_erase lsrByte_V) (lsrByte_C_Z_N _ _)⟩

theorem rorByte_V (v cc : Byte) : getFlag .V (rorByte v cc).2 = getFlag .V cc := by simp [rorByte]

theorem rorByte_toNat (v cc : Byte) :
    (rorByte v cc).1.toNat = (if getFlag .C cc then 128 else 0) + v.toNat / 2 := half_with_top_bit_toNat _ v

theorem asrByte_V (v cc : Byte) : getFlag .V (asrByte v cc).2 = getFlag .V cc := by simp [asrByte]

theorem asrByte_toNat (v cc : Byte) :
    (asrByte v cc).1.toNat = (if 128 ≤ v.toNat then 128 else 0) + v.toNat / 2 := by
  have htop : v &&& 0x80#8 = if v.getLsbD 7 then 0x80#8 else 0x00#8 := BitVec.and_twoPow v 7
  rw [asrByte, htop, half_with_top_bit_toNat, getLsbD_seven_eq]
  simp only [decide_eq_true_eq]

/-- The flags of a right shift that puts a bit in on top: C is the old bit 0 and N the bit put in. -/
theorem half_with_top_bit_C_Z_N {r v cc : Byte} {top : Prop} [Decidable top]
    (hr : r.toNat = (if top then 128 else 0) + v.toNat / 2) :
    getFlag .C (setNZ8 r (setFlag .C (v.getLsbD 0) cc)) = decide (v.toNat % 2 = 1) ∧
    getFlag .Z (setNZ8 r (setFlag .C (v.getLsbD 0) cc)) = decide (r.toNat = 0) ∧
    getFlag .N (setNZ8 r (setFlag .C (v.getLsbD 0) cc)) = decide top := by
  obtain ⟨hZ, hN⟩ := setNZ8_Z_N r (setFlag .C (v.getLsbD 0) cc)
  have htop : 128 ≤ r.toNat ↔ top := by
    have hhalf : v.toNat / 2 < 128 := Nat.div_lt_of_lt_mul v.isLt
    by_cases h : top
    · simp [hr, h]
    · simp [hr, h, hhalf]
  refine ⟨?_, hZ, hN.trans (decide_eq_decide.mpr htop)⟩
  rw [← getLsbD_zero_eq]
  simp

theorem rorByte_C_Z_N (v cc : Byte) :
    getFlag .C (rorByte v cc).2 = decide (v.toNat % 2 = 1) ∧
    getFlag .Z (rorByte v cc).2 = decide ((rorByte v cc).1.toNat = 0) ∧
    getFlag .N (rorByte v cc).2 = getFlag .C cc := by
  obtain ⟨hC, hZ, hN⟩ := half_with_top_bit_C_Z_N (cc := cc) (rorByte_toNat v cc)
  exact ⟨hC, hZ, hN.trans (Bool.decide_coe _)⟩

theorem asrByte_C_Z_N (v cc : Byte) :
    getFlag .C (asrByte v cc).2 = decide (v.toNat % 2 = 1) ∧
    getFlag .Z (asrByte v cc).2 = decide ((asrByte v cc).1.toNat = 0) ∧
    getFlag .N (asrByte v cc).2 = decide (128 ≤ v.toNat) :=
  half_with_top_bit_C_Z_N (asrByte_toNat v cc)

/-- Settles O45: the old carry is put in on top of half of the byte, so N is the old carry. -/
theorem rorResult : Obligations.RorResult := by
  unfold Obligations.RorResult
  exact inThreeForms_of_run (rmwAt rorByte) fun s ea =>
    ⟨_, rorByte_toNat _ _, rmwAt_completesStoring (rorByte_flags.writesOnly_erase rorByte_V) (rorByte_C_Z_N _ _)⟩

/-- Settles O46: bit 7 is put in again on top of half of the byte, so N is the old bit 7. -/
theorem asrResult : Obligations.AsrResult := by
  unfold Obligations.AsrResult
  exact inThreeForms_of_run (rmwAt asrByte) fun s ea =>
    ⟨_, asrByte_toNat _ _, rmwAt_completesStoring (asrByte_flags.writesOnly_erase asrByte_V) (asrByte_C_Z_N _ _)⟩

/-! ## ASL and ROL (43_rmw.md R206, R207): C takes bit 7, and V says that bits 7 and 6 differ -/

/-- C and V of a left shift stay when Z and N are assigned after them. -/
theorem setNZ8_shiftLeftFlags_C_V (r v cc : Byte) :
    getFlag .C (setNZ8 r (shiftLeftFlags v cc)) = decide (128 ≤ v.toNat) ∧
    getFlag .V (setNZ8 r (shiftLeftFlags v cc)) = decide (64 ≤ v.toNat ∧ v.toNat < 192) := by
  rw [← getLsbD_seven_eq, ← xor_getLsbD_seven_six]
  simp [shiftLeftFlags]

/-- Settles O47: the shifted byte is twice the byte, modulo 256. -/
theorem aslResult : Obligations.AslResult := by
  unfold Obligations.AslResult
  refine inThreeForms_of_run (rmwAt aslByte) fun s ea =>
    ⟨_, double_toNat _, rmwAt_completesStoring aslByte_flags ?_⟩
  obtain ⟨hC, hV⟩ := setNZ8_shiftLeftFlags_C_V (aslByte (s.readByte ea) s.cc).1 (s.readByte ea) s.cc
  exact ⟨hC, hV, setNZ8_Z_N _ _⟩

/-- Settles O48: the old carry is put in at the bottom of twice the byte. -/
theorem rolResult : Obligations.RolResult := by
  unfold Obligations.RolResult
  refine inThreeForms_of_run (rmwAt rolByte) fun s ea =>
    ⟨_, double_with_bottom_bit_toNat _ _, rmwAt_completesStoring rolByte_flags ?_⟩
  obtain ⟨hC, hV⟩ := setNZ8_shiftLeftFlags_C_V (rolByte (s.readByte ea) s.cc).1 (s.readByte ea) s.cc
  exact ⟨hC, hV, setNZ8_Z_N _ _⟩

/-! ## DEC and INC (43_rmw.md R208, R209): the adder with no flag enabled, so C is not written -/

theorem decByte_C (v cc : Byte) : getFlag .C (decByte v cc).2 = getFlag .C cc := by simp [decByte]

theorem decByte_toNat (v cc : Byte) : (decByte v cc).1.toNat = (v.toNat + 255) % 256 := by
  rw [decByte, binaryAdd8_value, BitVec.toNat_add]
  rfl

theorem decByte_V (v cc : Byte) : getFlag .V (decByte v cc).2 = decide (v.toNat = 0) := by
  simp [decByte, beq_eq_decide_toNat]

/-- Settles O49: adding 255 is taking 1 away modulo 256. -/
theorem decResult : Obligations.DecResult := by
  unfold Obligations.DecResult
  exact inThreeForms_of_run (rmwAt decByte) fun s ea =>
    ⟨_, decByte_toNat _ _, rmwAt_completesStoring (decByte_flags.writesOnly_erase decByte_C)
      ⟨decByte_V _ _, setNZ8_Z_N _ _⟩⟩

theorem incByte_C (v cc : Byte) : getFlag .C (incByte v cc).2 = getFlag .C cc := by simp [incByte]

theorem incByte_toNat (v cc : Byte) : (incByte v cc).1.toNat = (v.toNat + 1) % 256 := by
  rw [incByte, binaryAdd8_value, BitVec.toNat_add]
  rfl

theorem incByte_V (v cc : Byte) : getFlag .V (incByte v cc).2 = decide (v.toNat % 128 = 127) := by
  simp [incByte, and_0x7F_beq_eq]

/-- Settles O50: V is the test of the low seven bits before the addition. -/
theorem incResult : Obligations.IncResult := by
  unfold Obligations.IncResult
  exact inThreeForms_of_run (rmwAt incByte) fun s ea =>
    ⟨_, incByte_toNat _ _, rmwAt_completesStoring (incByte_flags.writesOnly_erase incByte_C)
      ⟨incByte_V _ _, setNZ8_Z_N _ _⟩⟩

/-! ## TST and CLR (43_rmw.md R210, R211) -/

theorem tstByte_C (v cc : Byte) : getFlag .C (tstByte v cc).2 = getFlag .C cc := by simp [tstByte]

theorem tstByte_V_Z_N (v cc : Byte) :
    getFlag .V (tstByte v cc).2 = false ∧ getFlag .Z (tstByte v cc).2 = decide (v.toNat = 0) ∧
    getFlag .N (tstByte v cc).2 = decide (128 ≤ v.toNat) := by
  simp [tstByte, isZero8_eq, isNegative8_eq]

/-- Settles O51: the template without its write. -/
theorem tstResult : Obligations.TstResult := by
  unfold Obligations.TstResult
  exact inThreeForms_of_run (testAt tstByte) fun s ea =>
    testAt_completesWithFlags (tstByte_flags.writesOnly_erase tstByte_C) (tstByte_V_Z_N _ _)

theorem clrByte_Z_N_C_V (v cc : Byte) :
    getFlag .Z (clrByte v cc).2 = true ∧ getFlag .N (clrByte v cc).2 = false ∧
    getFlag .C (clrByte v cc).2 = false ∧ getFlag .V (clrByte v cc).2 = false := by
  simp [clrByte]

/-- Settles O52: the transform takes neither its byte nor its flags from the operand. -/
theorem clrResult : Obligations.ClrResult := by
  unfold Obligations.ClrResult
  exact inThreeForms_of_run (rmwAt clrByte) fun s ea =>
    rmwAt_completesStoring clrByte_flags (clrByte_Z_N_C_V (s.readByte ea) _)

end Sys2Proof.Machine
end

section
/-! Control transfer (44_jmp_lbranch.md): where JMP and the long branches leave PC. -/

namespace Sys2Proof.Machine

/-! ## JMP (44_jmp_lbranch.md R240) -/

/-- Settles O53: after each operand stage JMP is one write of PC. -/
theorem jmpResult : Obligations.JmpResult := by
  unfold Obligations.JmpResult
  exact inThreeForms_of_run (fun ea s => s.setPc ea) fun _ _ => rfl

/-! ## The long branches (44_jmp_lbranch.md R241 to R256) -/

/-- The long branches of the list are the template under a test of CC that has the value listed. -/
theorem exec_eq_longBranch_of_mem {s : State} {off : Word} :
    ∀ row ∈ branchConditions s off, ∃ condition, exec row.1 s = .next (longBranch condition off s) ∧
      condition s.cc = row.2 := by
  simp only [branchConditions, List.forall_mem_cons]
  exact ⟨⟨neverCondition, rfl, rfl⟩, ⟨higherCondition, rfl, rfl⟩, ⟨lowerOrSameCondition, rfl, rfl⟩,
    ⟨carryClearCondition, rfl, rfl⟩, ⟨carrySetCondition, rfl, rfl⟩, ⟨notEqualCondition, rfl, rfl⟩,
    ⟨equalCondition, rfl, rfl⟩, ⟨overflowClearCondition, rfl, rfl⟩, ⟨overflowSetCondition, rfl, rfl⟩,
    ⟨plusCondition, rfl, rfl⟩, ⟨minusCondition, rfl, rfl⟩, ⟨greaterOrEqualCondition, rfl, rfl⟩,
    ⟨lessThanCondition, rfl, rfl⟩, ⟨greaterThanCondition, rfl, rfl⟩, ⟨lessOrEqualCondition, rfl, rfl⟩, nofun⟩

/-- PC after a long branch. -/
theorem longBranch_pc (condition : Byte → Bool) (off : Word) (s : State) :
    (longBranch condition off s).pc = if condition s.cc then advanceWord s.pc 2 + off else advanceWord s.pc 2 := by
  rw [longBranch_eq, State.setPc_pc]

/-- PC after a long branch as a number: the offset counts from the next instruction, modulo 65536 (44_jmp_lbranch.md
R241; 10_state.md R29). -/
theorem longBranch_pc_toNat (condition : Byte → Bool) (off : Word) (s : State) :
    ((longBranch condition off s).pc.toNat : Int) =
      (s.pc.toNat + 2 + if condition s.cc then off.toInt else 0) % 65536 := by
  rw [longBranch_pc]
  cases condition s.cc with
  | false => simp [advanceWord_toNat]
  | true =>
    have hsum := add_ofInt_toNat (advanceWord s.pc 2) off.toInt
    rw [BitVec.ofInt_toInt, advanceWord_toNat] at hsum
    push_cast at hsum
    rw [Int.emod_add_emod] at hsum
    exact hsum

/-- Settles O54: each branch is the template under its condition, which writes PC and nothing else. -/
theorem longBranchTargets : Obligations.LongBranchTargets := by
  unfold Obligations.LongBranchTargets
  intro s off i taken hmem
  obtain ⟨condition, hexec, rfl⟩ := exec_eq_longBranch_of_mem (i, taken) hmem
  refine ⟨(longBranch condition off s).pc, ?_, longBranch_pc_toNat condition off s⟩
  rw [hexec, longBranch_pc, longBranch_eq]

/-! ## Complementary conditions (44_jmp_lbranch.md R244, R254, R256) -/

theorem lowerOrSameCondition_eq_not (cc : Byte) : lowerOrSameCondition cc = !higherCondition cc := by
  simp [lowerOrSameCondition, higherCondition]

theorem lessThanCondition_eq_not (cc : Byte) : lessThanCondition cc = !greaterOrEqualCondition cc := rfl

theorem lessOrEqualCondition_eq_not (cc : Byte) : lessOrEqualCondition cc = !greaterThanCondition cc := by
  simp [lessOrEqualCondition, greaterThanCondition, bne]

/-- An offset other than 0 leaves the next instruction exactly when the branch is taken. -/
theorem longBranch_pc_eq_next_iff {off : Word} (hoff : off ≠ 0#16) (condition : Byte → Bool) (s : State) :
    (longBranch condition off s).pc = advanceWord s.pc 2 ↔ condition s.cc = false := by
  rw [longBranch_pc]
  cases condition s.cc with
  | false => simp
  | true => simpa using hoff

/-- Of two long branches with complementary conditions and an offset other than 0 exactly one jumps. -/
theorem longBranch_complementary {p q : Byte → Bool} (hq : ∀ cc, q cc = !p cc) {off : Word} (hoff : off ≠ 0#16)
    (s : State) :
    (longBranch p off s).pc = advanceWord s.pc 2 ↔ (longBranch q off s).pc ≠ advanceWord s.pc 2 := by
  rw [ne_eq, longBranch_pc_eq_next_iff hoff, longBranch_pc_eq_next_iff hoff, hq]
  simp

/-- Settles O55: the conditions of each pair are each other's negation. -/
theorem complementaryBranches : Obligations.ComplementaryBranches := by
  unfold Obligations.ComplementaryBranches
  intro s off i j hoff hmem
  simp only [List.mem_cons, List.not_mem_nil, or_false, Prod.mk.injEq] at hmem
  rcases hmem with ⟨rfl, rfl⟩ | ⟨rfl, rfl⟩ | ⟨rfl, rfl⟩
  · exact ⟨_, _, rfl, rfl, longBranch_complementary lowerOrSameCondition_eq_not hoff s⟩
  · exact ⟨_, _, rfl, rfl, longBranch_complementary lessThanCondition_eq_not hoff s⟩
  · exact ⟨_, _, rfl, rfl, longBranch_complementary lessOrEqualCondition_eq_not hoff s⟩

end Sys2Proof.Machine
end

section
/-! The word compares (45_cmp16.md): the flags of register minus operand as arithmetic, and the one template that assigns
them after every operand stage. -/

namespace Sys2Proof.Machine

/-! ## The difference of two words, and the carry of the addition that makes it -/

/-- The addition of the negation is the difference modulo 65536. -/
theorem add_neg_toNat (a b : Word) : (a + -b).toNat = (a.toNat + (65536 - b.toNat)) % 65536 := by
  rw [BitVec.toNat_add, BitVec.toNat_neg, Nat.add_mod_mod]

/-- The difference is zero when the two words are equal (41_alu_primitives.md R151). -/
theorem isZero16_add_neg (a b : Word) : isZero16 (a + -b) = decide (a.toNat = b.toNat) := by
  rw [isZero16, Bool.eq_iff_iff, beq_iff_eq, decide_eq_true_eq, ← BitVec.sub_eq_add_neg, ← BitVec.toNat_eq]
  exact sub_eq_zero

/-- The addition of the negation carries out when the operand is not 0 and at most the register: the negation of 0 is 0,
so nothing is added there (41_alu_primitives.md R157). -/
theorem add_neg_carries_iff (a b : Word) :
    a.toNat + (-b).toNat > 0xFFFF ↔ b.toNat ≠ 0 ∧ b.toNat ≤ a.toNat := by
  have ha : a.toNat < 65536 := a.isLt
  have hb : b.toNat < 65536 := b.isLt
  rw [BitVec.toNat_neg]
  omega

/-! ## The compare (45_cmp16.md R270) -/

/-- Z and N of a compare, from the difference. -/
theorem compareFlags_Z_N (register operand : Word) (cc : Byte) :
    getFlag .Z (compareFlags register operand cc) = decide (register.toNat = operand.toNat) ∧
    getFlag .N (compareFlags register operand cc) =
      decide (32768 ≤ (register.toNat + (65536 - operand.toNat)) % 65536) := by
  rw [← isZero16_add_neg, ← add_neg_toNat, ← isNegative16_eq]
  simp [compareFlags, twosComplement16_eq_neg]

/-- C and V of a compare: both were cleared, and both are raised by the carry. -/
theorem compareFlags_C_V (register operand : Word) (cc : Byte) :
    getFlag .C (compareFlags register operand cc) =
      decide (operand.toNat ≠ 0 ∧ operand.toNat ≤ register.toNat) ∧
    getFlag .V (compareFlags register operand cc) =
      decide (operand.toNat ≠ 0 ∧ operand.toNat ≤ register.toNat) := by
  simp only [← add_neg_carries_iff]
  simp [compareFlags, twosComplement16_eq_neg, binaryAdd16_flags]

/-- CC assigned from a compare is the whole of what a compare does. -/
theorem setCc_compareFlags_comparesTo (s : State) (register operand : Word) :
    ComparesTo s (.next (s.setCc (compareFlags register operand s.cc))) register.toNat operand.toNat := by
  obtain ⟨hZ, hN⟩ := compareFlags_Z_N register operand s.cc
  obtain ⟨hC, hV⟩ := compareFlags_C_V register operand s.cc
  exact ⟨_, rfl, ⟨hZ, hN, hC, hV⟩, fun _ hg => compareFlags_flags register operand s.cc hg, rfl,
    ⟨rfl, rfl, rfl, rfl, rfl, rfl, rfl⟩, fun _ => rfl⟩

/-- A compare with the word at the address the operand stage gave; the register is read after that stage
(40_addressing.md R134). -/
theorem compareMemory_comparesTo (register : State → Word) (s : State) (ea : Word) :
    ComparesTo s (.next (compareMemory register (ea, s))) (register s).toNat (s.readWord ea).toNat :=
  setCc_compareFlags_comparesTo s (register s) (s.readWord ea)

/-- A compare with the word in the instruction, of a register that the Immediate operand stage keeps: that stage writes
PC alone. -/
theorem compareValue_comparesTo (register : State → Word) (w : Word) (s : State)
    (h : register (immediateStage w s).2 = register s) :
    ComparesTo (immediateStage w s).2 (.next (compareValue register (immediateStage w s))) (register s).toNat
      w.toNat := by
  rw [← h]
  exact setCc_compareFlags_comparesTo (immediateStage w s).2 (register (immediateStage w s).2) w

/-- Settles O56: the compare of D, which is A and B (10_state.md R22). -/
theorem cmpdResult : Obligations.CmpdResult := by
  unfold Obligations.CmpdResult
  have hd : ∀ s : State, s.a.toNat * 256 + s.b.toNat = s.d.toNat := fun s => (joinBytes_toNat s.a s.b).symm
  simp only [hd]
  exact fun s => ⟨fun w => compareValue_comparesTo State.d w s rfl,
    inThreeForms_of_run (fun ea s => compareMemory State.d (ea, s)) (compareMemory_comparesTo State.d)⟩

/-- Settles O57: the compare of Y, with the Y of the state the operand stage left. -/
theorem cmpyResult : Obligations.CmpyResult := by
  unfold Obligations.CmpyResult
  exact fun s => ⟨fun w => compareValue_comparesTo State.y w s rfl,
    inThreeForms_of_run (fun ea s => compareMemory State.y (ea, s)) (compareMemory_comparesTo State.y)⟩

end Sys2Proof.Machine
end

section
/-! The software interrupt (46_swi3.md): the pushed bytes as they lie from the new S upwards, and the trap entry. -/

namespace Sys2Proof.Machine

/-! ## Pushed bytes, counted from the new S upwards (46_swi3.md R281) -/

/-- The byte with `j` pushed before it and `k` after it lies `k` above the new S, modulo 65536. -/
theorem pushPointer_add_toNat (sp : Word) {bs : List Byte} {k j : Nat} (h : k + (j + 1) = bs.length) :
    ((pushPointer sp bs).toNat + k) % 65536 = (sp - BitVec.ofNat 16 (j + 1)).toNat := by
  rw [pushPointer_eq, ← h, BitVec.toNat_sub, BitVec.toNat_sub, BitVec.toNat_ofNat, BitVec.toNat_ofNat]
  omega

/-- From the new S upwards the pushed bytes lie last one first. -/
theorem read_pushMemory_above {m : Memory} {sp : Word} {bs : List Byte} (hlen : bs.length ≤ 65536) {k : Nat}
    (hk : k < bs.length) :
    Memory.read (pushMemory m sp bs) (((pushPointer sp bs).toNat + k) % 65536) = bs.reverse.getD k 0#8 := by
  have hpos : k + (bs.length - 1 - k + 1) = bs.length := by omega
  rw [pushPointer_add_toNat sp hpos, read_pushMemory_at hlen (by omega), List.getD_reverse k hk]

/-- A byte that does not lie in the stretch from the new S upwards reads as before. -/
theorem read_pushMemory_of_not_above {m : Memory} {sp : Word} {bs : List Byte} {i : Nat}
    (h : ¬ ∃ k, k < bs.length ∧ i = ((pushPointer sp bs).toNat + k) % 65536) :
    Memory.read (pushMemory m sp bs) i = Memory.read m i := by
  apply read_pushMemory_outside
  intro j hj hi
  have hpos : bs.length - 1 - j + (j + 1) = bs.length := by omega
  exact h ⟨bs.length - 1 - j, by omega, hi.trans (pushPointer_add_toNat sp hpos).symm⟩

/-! ## The trap entry (46_swi3.md R280) -/

/-- The order of the pushes is the frame from its highest byte down. -/
theorem reverse_frameBytes (s : State) : (frameBytes (setEntire s)).reverse = swi3Frame s := rfl

theorem enterTrap_s (v : Word) (s : State) : (enterTrap v s).s = pushPointer s.s (frameBytes (setEntire s)) := rfl

theorem enterTrap_mem (v : Word) (s : State) :
    (enterTrap v s).mem = pushMemory s.mem s.s (frameBytes (setEntire s)) := rfl

/-- S goes down by the length of the frame, modulo 65536. -/
theorem enterTrap_s_toNat (v : Word) (s : State) : (enterTrap v s).s.toNat = (s.s.toNat + (65536 - 12)) % 65536 := by
  rw [enterTrap_s, pushPointer_eq]
  exact sub_ofNat_toNat s.s (n := 12) (by decide)

/-- The frame lies at the new S upwards. -/
theorem enterTrap_frame (v : Word) (s : State) {k : Nat} (hk : k < 12) :
    Memory.read (enterTrap v s).mem (((enterTrap v s).s.toNat + k) % 65536) = (swi3Frame s).getD k 0#8 := by
  rw [enterTrap_mem, enterTrap_s, ← reverse_frameBytes]
  exact read_pushMemory_above (bs := frameBytes (setEntire s)) (show 12 ≤ 65536 by decide) hk

/-- Memory outside the frame is unchanged. -/
theorem enterTrap_outside_frame (v : Word) (s : State) :
    SameBytesExcept (fun i => ∃ k, k < 12 ∧ i = ((enterTrap v s).s.toNat + k) % 65536) s (enterTrap v s) :=
  fun _ hi => read_pushMemory_of_not_above (bs := frameBytes (setEntire s)) hi

/-- PC is the word at the vector in the memory after the pushes (20_memory.md R69). -/
theorem enterTrap_pc (v : Word) (s : State) : (enterTrap v s).pc = (enterTrap v s).readWord v := rfl

/-- Settles O58: the frame is the pushed bytes in reverse, and the vector is read when they are written. -/
theorem swi3StacksAndVectors : Obligations.Swi3StacksAndVectors := by
  unfold Obligations.Swi3StacksAndVectors
  refine ⟨fun _ => rfl, fun vector s => ?_⟩
  have hflags : SameFlagsExcept [.E] s (enterTrap vector s) := fun f hf => by
    rw [enterTrap_flag, if_neg (by simpa using hf)]
  have hpc : (enterTrap vector s).pc.toNat = (Memory.read (enterTrap vector s).mem vector.toNat).toNat * 256 +
      (Memory.read (enterTrap vector s).mem ((vector.toNat + 1) % 65536)).toNat := by
    rw [enterTrap_pc]
    exact wordReadIsBigEndian (enterTrap vector s) vector
  exact ⟨enterTrap_flag vector s .E, hflags, enterTrap_s_toNat vector s, fun _ hk => enterTrap_frame vector s hk,
    enterTrap_outside_frame vector s, hpc, rfl, rfl, rfl, rfl, rfl, rfl⟩

end Sys2Proof.Machine
end

section
/-! The decoder drops no bit of the encoding (30_encoding.md sections 2 and 3). -/

namespace Sys2Proof

/-- Settles O2: the opcode bytes are those of the row the lookup found, and the operand bytes after them are read back
format by format. -/
theorem decodedStreamBeginsWithEncoding : Obligations.DecodedStreamBeginsWithEncoding := by
  unfold Obligations.DecodedStreamBeginsWithEncoding
  exact fun _ _ h => wf_and_beginsWith_of_decode h

end Sys2Proof
end

section
/-! The faults of a step (60_exceptions.md R301, R303, R306): the streams that raise each, and the state a fault leaves. -/

namespace Sys2Proof.Machine

/-- A step stops with a fault exactly when the decoder rejects the stream at PC, and the rejection names the fault. -/
theorem step_eq_fault (s : State) (r : Fault) :
    step s = .fault r ↔
      (∃ page op, r = .unimplementedOpcode page op ∧ decode (instructionStream s) = .error (.unassigned page op)) ∨
      (∃ pb, r = .invalidAddressingMode pb ∧ decode (instructionStream s) = .error (.invalidPostbyte pb)) := by
  constructor
  · intro h
    rcases step_cases s with ⟨i, -, hs⟩ | ⟨page, op, hd, hs⟩ | ⟨pb, hd, hs⟩
    · obtain ⟨t, ht, -⟩ := exec_cases i (afterOpcode s)
      rw [hs, ht] at h
      cases h
    · cases hs.symm.trans h
      exact .inl ⟨page, op, rfl, hd⟩
    · cases hs.symm.trans h
      exact .inr ⟨pb, rfl, hd⟩
  · rintro (⟨page, op, rfl, hd⟩ | ⟨pb, rfl, hd⟩)
    · exact step_of_unassigned hd
    · exact step_of_invalidPostbyte hd

/-- Settles O10: each fault is one rejection of the decoder, whose streams are the unassigned opcodes and the invalid
postbytes of 30_encoding.md R90 and R92. -/
theorem stepFaultsExactlyOnBadEncodings : Obligations.StepFaultsExactlyOnBadEncodings := by
  unfold Obligations.StepFaultsExactlyOnBadEncodings
  intro s r
  rw [step_eq_fault]
  exact or_congr
    (exists_congr fun page => exists_congr fun op => and_congr_right' (unassignedOpcodesAreRejected _ page op))
    (exists_congr fun pb => and_congr_right' (invalidPostbytesAreRejected _ pb))

/-- executeInstruction takes an invalid postbyte as a fault in the state past the opcode bytes. -/
theorem executeInstruction_of_invalidPostbyte {s : State} {pb : Byte}
    (h : decode (instructionStream s) = .error (.invalidPostbyte pb)) :
    executeInstruction s = .faulted (.invalidAddressingMode pb) (afterOpcode s) := by
  rw [executeInstruction_eq, h]

/-- Settles O12: an instruction that was decoded completes, and either rejection stops in the state past the opcode
bytes. -/
theorem faultLeavesAllButPc : Obligations.FaultLeavesAllButPc := by
  unfold Obligations.FaultLeavesAllButPc
  intro s t r h
  change t = afterOpcode s
  cases hd : decode (instructionStream s) with
  | ok i =>
    obtain ⟨u, -, -, hu⟩ := executeInstruction_of_decode hd
    cases hu.symm.trans h
  | error reject =>
    cases reject with
    | unassigned page op => cases (executeInstruction_of_unassigned hd).symm.trans h; rfl
    | invalidPostbyte pb => cases (executeInstruction_of_invalidPostbyte hd).symm.trans h; rfl

end Sys2Proof.Machine
end

section
/-! The cycle counts (70_reset_and_hazards.md R349): the rows of the timing table, and the step that returns them. -/

namespace Sys2Proof.Machine

/-! ## The rows of the timing table -/

theorem cycleCount_rmwDirect (cmp : Cmp16Cycles) (s : State) (dd : Byte) :
    ∀ i ∈ [Instr.negDirect dd, .comDirect dd, .lsrDirect dd, .rorDirect dd, .asrDirect dd, .aslDirect dd,
      .rolDirect dd, .decDirect dd, .incDirect dd, .tstDirect dd, .clrDirect dd], cycleCount cmp i s = 6 := by
  simp only [List.forall_mem_cons]
  exact ⟨rfl, rfl, rfl, rfl, rfl, rfl, rfl, rfl, rfl, rfl, rfl, nofun⟩

/-- The Indexed count grows with the operand bytes. -/
theorem cycleCount_rmwIndexed (cmp : Cmp16Cycles) (s : State) (ix : Indexed) :
    ∀ i ∈ [Instr.negIndexed ix, .comIndexed ix, .lsrIndexed ix, .rorIndexed ix, .asrIndexed ix, .aslIndexed ix,
      .rolIndexed ix, .decIndexed ix, .incIndexed ix, .tstIndexed ix, .clrIndexed ix],
      cycleCount cmp i s = 4 + ix.bytes.length := by
  rw [Indexed.bytes_length]
  simp only [List.forall_mem_cons]
  exact ⟨rfl, rfl, rfl, rfl, rfl, rfl, rfl, rfl, rfl, rfl, rfl, nofun⟩

theorem cycleCount_rmwExtended (cmp : Cmp16Cycles) (s : State) (ea : Word) :
    ∀ i ∈ [Instr.negExtended ea, .comExtended ea, .lsrExtended ea, .rorExtended ea, .asrExtended ea, .aslExtended ea,
      .rolExtended ea, .decExtended ea, .incExtended ea, .tstExtended ea, .clrExtended ea],
      cycleCount cmp i s = 7 := by
  simp only [List.forall_mem_cons]
  exact ⟨rfl, rfl, rfl, rfl, rfl, rfl, rfl, rfl, rfl, rfl, rfl, nofun⟩

theorem cycleCount_jmpIndexed (cmp : Cmp16Cycles) (s : State) (ix : Indexed) :
    cycleCount cmp (.jmpIndexed ix) s = 1 + ix.bytes.length := by
  rw [Indexed.bytes_length]
  rfl

/-- A long branch costs one more cycle when its condition on CC holds (44_jmp_lbranch.md R241). -/
theorem cycleCount_of_mem_branchConditions (cmp : Cmp16Cycles) (s : State) (off : Word) :
    ∀ row ∈ branchConditions s off, cycleCount cmp row.1 s = if row.2 then 6 else 5 := by
  simp only [branchConditions, List.forall_mem_cons]
  exact ⟨rfl, rfl, rfl, rfl, rfl, rfl, rfl, rfl, rfl, rfl, rfl, rfl, rfl, rfl, rfl, nofun⟩

theorem cycleCount_compareIndexed (cmp : Cmp16Cycles) (s : State) (ix : Indexed) :
    cycleCount cmp (.cmpdIndexed ix) s = cmp.indexedBase + ix.bytes.length ∧
      cycleCount cmp (.cmpyIndexed ix) s = cmp.indexedBase + ix.bytes.length := by
  rw [Indexed.bytes_length]
  exact ⟨rfl, rfl⟩

/-! ## The step -/

/-- Settles O15: a step returns the row of its instruction; the dispatch leaves CC, so a branch is decided on the flags
the step began with. -/
theorem completedStepsReturnCycleCounts : Obligations.CompletedStepsReturnCycleCounts := by
  unfold Obligations.CompletedStepsReturnCycleCounts
  intro s i hd
  obtain ⟨t, -, hstep, hexec⟩ := executeInstruction_of_decode hd
  refine ⟨t, _, hexec, hstep, fun dd => cycleCount_rmwDirect _ _ dd i, fun ix => cycleCount_rmwIndexed _ _ ix i,
    fun ea => cycleCount_rmwExtended _ _ ea i, ?jmpDirect, ?jmpIndexed, ?jmpExtended, ?branch, ?swi3, ?immediate, ?direct,
    ?indexed, ?extended⟩
  case jmpDirect => rintro dd rfl; rfl
  case jmpIndexed => rintro ix rfl; exact cycleCount_jmpIndexed _ _ ix
  case jmpExtended => rintro ea rfl; rfl
  case branch =>
    have hconditions : ∀ off, branchConditions (afterOpcode s) off = branchConditions s off := fun _ => rfl
    intro off taken hmem
    exact cycleCount_of_mem_branchConditions _ _ off (i, taken) (hconditions off ▸ hmem)
  case swi3 => rintro rfl; rfl
  case immediate => rintro w (rfl | rfl) <;> rfl
  case direct => rintro dd (rfl | rfl) <;> rfl
  case indexed =>
    rintro ix (rfl | rfl)
    · exact (cycleCount_compareIndexed _ _ ix).1
    · exact (cycleCount_compareIndexed _ _ ix).2
  case extended => rintro ea (rfl | rfl) <;> rfl

end Sys2Proof.Machine
end
